-- ==== Sys2Proof/Word.lean ====
section
/-! DEFINITION. The word types: a register value, a dimension half, a memory byte or channel value (spec/00_scope.md R9). -/

namespace Sys2Proof

/-- Every register value is an unsigned 32-bit word (R9). -/
abbrev Word := BitVec 32

/-- A width or a height: an unsigned 16-bit field (R23, R70). -/
abbrev Half := BitVec 16

/-- A data-memory byte, a channel value, a payload byte (R9, R46). -/
abbrev Byte := BitVec 8

end Sys2Proof
end

