-- ==== Sys2Proof/Syntax.lean ====
section
/-! DEFINITION. The commands, one constructor per row of spec/opcode_table.json (spec/30_encoding.md R66). -/

namespace Sys2Proof

/-- A decoded command. No command word has an operand field (R64): operands are read from registers. -/
inductive Instr where
  | nop
  | digits
  | encpx
  | decpx
  | encode
  | decode
  /-- Every word outside the opcode map of R66, kept whole (R72, R122). -/
  | illegal (w : Word)
  deriving DecidableEq, Repr

end Sys2Proof
end

