-- ==== Sys2Proof/WellFormed.lean ====
section
/-! DEFINITION. Which commands are well-formed: `illegal` holds no word of the opcode map (spec/30_encoding.md R66, R72). -/

namespace Sys2Proof

/-- The six legal command words of R66. -/
def legalWords : List Word :=
  [0x00000000, 0x00000001, 0x00000002, 0x00000003, 0x00000010, 0x00000011]

/-- The word of an `illegal` is none of the six legal words. -/
def Instr.illegalWordIsIllegal : Instr → Bool
  | .illegal w => !legalWords.contains w
  | _ => true

/-- A command is well-formed when the one check there is passes. -/
def Instr.wellFormed (i : Instr) : Bool := i.illegalWordIsIllegal

end Sys2Proof
end

