-- ==== Sys2Proof/Decode.lean ====
section
/-! DEFINITION. The decoder of command words, total on every 32-bit word, and the encoder (spec/30_encoding.md R63 to R66,
R72, R73; spec/opcode_table.json). -/

namespace Sys2Proof

/-- Field OP of format C, bits [7:0] (R64). -/
def opField (w : Word) : Byte := w.extractLsb' 0 8

/-- Field RSV of format C, bits [31:8] (R64). -/
def rsvField (w : Word) : BitVec 24 := w.extractLsb' 8 24

/-- The command an opcode selects, where RSV is zero (R65, R66); `w` is the whole word, kept by ILLEGAL. -/
def decodeOp (w : Word) (op : Byte) : Instr :=
  if op = 0x00 then .nop
  else if op = 0x01 then .digits
  else if op = 0x02 then .encpx
  else if op = 0x03 then .decpx
  else if op = 0x10 then .encode
  else if op = 0x11 then .decode
  else .illegal w

/-- R65: one of the six commands if RSV is zero and OP is in the map, ILLEGAL otherwise. -/
def decode (w : Word) : Instr :=
  if rsvField w = 0 then decodeOp w (opField w) else .illegal w

/-- The command word of a command, from the column `word` of R66. -/
def encode : Instr → Word
  | .nop       => 0x00000000
  | .digits    => 0x00000001
  | .encpx     => 0x00000002
  | .decpx     => 0x00000003
  | .encode    => 0x00000010
  | .decode    => 0x00000011
  | .illegal w => w

/-- One row of spec/opcode_table.json: a word fits the row if its bits under `mask` are those of `pattern`. -/
structure OpcodeRow where
  mnemonic : String
  pattern : Word
  mask : Word
  deriving DecidableEq, Repr

/-- The row of spec/opcode_table.json that a command comes from. -/
def Instr.row : Instr → OpcodeRow
  | .nop       => ⟨"NOP", 0x00000000, 0xFFFFFFFF⟩
  | .digits    => ⟨"DIGITS", 0x00000001, 0xFFFFFFFF⟩
  | .encpx     => ⟨"ENCPX", 0x00000002, 0xFFFFFFFF⟩
  | .decpx     => ⟨"DECPX", 0x00000003, 0xFFFFFFFF⟩
  | .encode    => ⟨"ENCODE", 0x00000010, 0xFFFFFFFF⟩
  | .decode    => ⟨"DECODE", 0x00000011, 0xFFFFFFFF⟩
  | .illegal _ => ⟨"ILLEGAL", 0x00000000, 0x00000000⟩

/-- The decoder on a table row's word, numbered as the table numbers its bits: an instruction is one 32-bit word
(R63), bits above `nbits` are zero, and no instruction is longer than 32 bits. -/
def decodeTableWord (nbits w : Nat) : Option Instr :=
  if nbits ≤ 32 then some (decode (BitVec.ofNat 32 (w % 2 ^ nbits))) else none

end Sys2Proof
end

