-- ==== Sys2Proof/Config.lean ====
section
/-! DEFINITION. What an implementation fixes and what the spec leaves free: constants with no body, so that no proof can
lean on a value of one (spec/00_scope.md R8, spec/93_implementation_defined.md). -/

namespace Sys2Proof.Config

/-- MEM_BYTES − 1, the highest data-memory address: the OPEN parameter of R8 and R46 in the form that gives
0 < MEM_BYTES ≤ 2^32 by its type. State holds the parameter (log 1); this is its value at reset. -/
opaque memTop : Word

/-- REG_BASE, the host address of the register window: an OPEN parameter the block cannot observe (R8, R16, U5).
The machine sees offsets only (log 14). That a host address has 32 bits is the model's choice (log 21). -/
opaque regBase : Word

/-- The host address of the byte at offset `off` of the register window (R16). DESIGN CHOICE: the spec gives a host address
no width; it has 32 bits here and the sum wraps modulo 2^32 (log 21). No step uses it. -/
def hostAddress (off : Word) : Word := regBase + off

/-- A byte the spec calls unspecified ("any value"), drawn for address `addr` at the draw numbered `draw`
(R107, R154; log 8, log 9). -/
opaque freeByte (draw addr : Nat) : Byte

end Sys2Proof.Config
end

