-- ==== Sys2Proof/Machine/State.lean ====
section
/-! DEFINITION. The state of the block and of what the spec puts around it (spec/10_state.md, spec/20_memory.md R45, R46,
spec/43_control.md R113), the reasons a step can stop, and the state after reset (R44). All of it is plain data. -/

namespace Sys2Proof.Machine

/-- The engine's phase, exposed as STATUS.BUSY (R20, R40). -/
inductive Phase where
  | idle
  | busy
  deriving DecidableEq, Repr

/-- The error codes of STATUS.ERR (R131). Codes 6 and 7 are never produced, so they have no constructor. -/
inductive ErrCode where
  | none
  | capacityExceeded
  | dimensionMismatch
  | malformedPayload
  | rangeFault
  | illegalCommand
  deriving DecidableEq, Repr

/-- The defined registers of the window (R16). -/
inductive Reg where
  | id | ctrl | status | cmd | imgDim | keyDim | capacity | len
  | coverBase | payloadBase | lockBase | keyBase | outBase
  | outLen | errIdx | errInfo | pixA | pixB | byteIn | res
  deriving DecidableEq, Repr

/-- The size of a host access to the window. Only `word` accesses are defined (R50, R128). -/
inductive Width where
  | byte
  | half
  | word
  deriving DecidableEq, Repr

/-- One operation of the host (R74), and the polling loop `wait` (R75). `off` is the host address less REG_BASE (R16). -/
inductive HostOp where
  /-- `rd`: a register read. -/
  | rd (width : Width) (off : Word)
  /-- `wr`: a register write of `v`. -/
  | wr (width : Width) (off v : Word)
  /-- `mrd`: the host reads the data-memory byte at `a`. -/
  | mrd (a : Word)
  /-- `mwr`: the host writes byte `b` at data-memory address `a`. -/
  | mwr (a : Word) (b : Byte)
  /-- `wait`: `rd STATUS` repeated while bit 0 of the value read is 1. -/
  | wait
  deriving DecidableEq, Repr

/-- Who takes the next step (R113): a host operation, the engine's completion step, or a reset. -/
inductive Turn where
  | host
  | engine
  | reset
  deriving DecidableEq, Repr

/-- Why a step stops with a fault. -/
inductive Fault where
  /-- Raised by a host `mrd` or `mwr` at an address of MEM_BYTES or more, where the data memory has no byte (R46).
  Safe: the model stops where the platform may go on (log 13). -/
  | hostByteAbsent (a : Word)
  deriving DecidableEq, Repr

/-- Why a step is refused: the spec's own `refuse` (R12), a host duty broken. -/
inductive Refusal where
  /-- Raised by an arm of `exec` whose instruction has no meaning in the model. Safe. No arm raises it. -/
  | notModelled (mnemonic : String)
  /-- Raised by ENCODE and DECODE whose buffers overlap in breach of R54 (U8), and by a reset that would abandon such a
  command (log 10, log 11). Safe. -/
  | bufferOverlap
  /-- Raised by a host access to a byte of a running frame command's ranges that R56 (b) forbids (U7). Safe. -/
  | hostRace (a : Word)
  /-- Raised by a host register access that is not an aligned 32-bit access of the window (R128, U9). Safe. -/
  | unsupportedAccess (width : Width) (off : Word)
  deriving DecidableEq, Repr

/-- The data memory as a sparse list of (address, byte): addresses strictly rising, no entry equal to what an unlisted
address reads as (`Memory.wf`). -/
abbrev Memory := List Host.Cell

/-- The whole state. `ID`, `CAPACITY`, `CMD` and `IRQ` hold nothing of their own (R18, R26, R21, R42). -/
structure State where
  /-- CTRL.IE (R19). -/
  ie : Bool
  /-- STATUS.BUSY (R20, R40). -/
  phase : Phase
  /-- STATUS.DONE (R20). -/
  done : Bool
  /-- STATUS.OVR (R20). -/
  ovr : Bool
  /-- STATUS.ERR (R20, R131). -/
  err : ErrCode
  /-- IMG_DIM: width in [15:0], height in [31:16] (R23). -/
  imgDim : Word
  /-- KEY_DIM: width in [15:0], height in [31:16] (R24). -/
  keyDim : Word
  /-- LEN (R25). -/
  len : Word
  /-- COVER_BASE (R27). -/
  coverBase : Word
  /-- PAYLOAD_BASE (R28). -/
  payloadBase : Word
  /-- LOCK_BASE (R29). -/
  lockBase : Word
  /-- KEY_BASE (R30). -/
  keyBase : Word
  /-- OUT_BASE (R31). -/
  outBase : Word
  /-- OUT_LEN (R32). -/
  outLen : Word
  /-- ERR_IDX (R33). -/
  errIdx : Word
  /-- ERR_INFO (R34). -/
  errInfo : Word
  /-- PIX_A (R35). -/
  pixA : Word
  /-- PIX_B (R36). -/
  pixB : Word
  /-- BYTE_IN, bits [7:0]; the other bits are RAZ/WI (R37). -/
  byteIn : Byte
  /-- RES (R38). -/
  res : Word
  /-- The hidden latch: the command word accepted last (R40). -/
  latch : Word
  /-- The hidden raster index IDX (R41). -/
  idx : Word
  /-- The hidden accumulator LNZ (R41, R105). -/
  lnz : Word
  /-- The data memory (R46). -/
  mem : Memory
  /-- MEM_BYTES − 1, a parameter no step writes (R8, R46; log 1). -/
  memTop : Word
  /-- The host's remaining operations, first one first (R74; log 5). -/
  script : List HostOp
  /-- The value the host's last read returned (R74; log 16). -/
  lastRead : Word
  /-- The turns to come (R113; log 6). -/
  sched : List Turn
  /-- How many times free bytes were drawn (log 8, log 9). -/
  draws : Nat
  deriving DecidableEq, Repr

/-- The state after a hardware reset (R44, R152), with nothing listed in memory, nothing for the host to do and no turn
laid down. `latch`, `idx` and `lnz` are unspecified by the spec and 0 here (log 3). -/
def State.reset : State where
  ie := false
  phase := .idle
  done := false
  ovr := false
  err := .none
  imgDim := 0
  keyDim := 0
  len := 0
  coverBase := 0
  payloadBase := 0
  lockBase := 0
  keyBase := 0
  outBase := 0
  outLen := 0
  errIdx := 0
  errInfo := 0
  pixA := 0
  pixB := 0
  byteIn := 0
  res := 0
  latch := 0
  idx := 0
  lnz := 0
  mem := []
  memTop := Config.memTop
  script := []
  lastRead := 0
  sched := []
  draws := 0

end Sys2Proof.Machine
end

