-- ==== Sys2Proof/Machine/Flags.lean ====
section
/-! DEFINITION. The STATUS and CTRL words, the error codes and the interrupt line, computed from their fields
(spec/10_state.md R19, R20, R42; spec/60_exceptions.md R131, R142). -/

namespace Sys2Proof.Machine

/-- The 3-bit code of STATUS.ERR (R131). -/
def ErrCode.code : ErrCode → BitVec 3
  | .none              => 0
  | .capacityExceeded  => 1
  | .dimensionMismatch => 2
  | .malformedPayload  => 3
  | .rangeFault        => 4
  | .illegalCommand    => 5

/-- STATUS.BUSY (R40). -/
def State.busy (s : State) : Bool := decide (s.phase = .busy)

/-- STATUS as the host reads it: BUSY 0, DONE 1, OVR 2, ERR [6:4], the rest reads 0 (R20). -/
def statusWord (s : State) : Word :=
  0#25 ++ s.err.code ++ 0#1 ++ BitVec.ofBool s.ovr ++ BitVec.ofBool s.done ++ BitVec.ofBool s.busy

/-- CTRL as the host reads it: IE in bit 0; SRST and the reserved bits read 0 (R19). -/
def ctrlWord (s : State) : Word := 0#31 ++ BitVec.ofBool s.ie

/-- IRQ = CTRL.IE AND STATUS.DONE (R42, R142). -/
def State.irq (s : State) : Bool := s.ie && s.done

/-- A write of `v` to STATUS: DONE and OVR are write-1-to-clear, every other bit is ignored (R119). -/
def clearStatus (v : Word) (s : State) : State :=
  { s with done := s.done && !v.getLsbD 1, ovr := s.ovr && !v.getLsbD 2 }

end Sys2Proof.Machine
end

