-- ==== Sys2Proof/Machine/Operands.lean ====
section
/-! DEFINITION. The operand forms and the pure functions over them: packed pixels and triples (spec/30_encoding.md R67 to
R70), the digit triple and the add-or-subtract rule (spec/41_encoder.md R81 to R85), the differences and the octal
reassembly (spec/42_decoder.md R96 to R98), the pixel count (spec/40_capacity.md R77) and the frame buffers with their range
and overlap rules (spec/20_memory.md R52 to R54). Numbers are unbounded here; a value is narrowed where it is stored (R9). -/

namespace Sys2Proof.Machine

/-! ### Pixels and triples -/

/-- The three colour channels the encoder changes and the decoder reads (R85, R99). -/
structure Colour where
  r : Byte
  g : Byte
  b : Byte
  deriving DecidableEq, Repr

/-- A pixel (R, G, B, A) (R13). -/
structure Pixel where
  r : Byte
  g : Byte
  b : Byte
  a : Byte
  deriving DecidableEq, Repr

/-- A triple of small numbers, one per colour channel (R13): digits, or absolute differences. -/
structure Triple where
  r : Nat
  g : Nat
  b : Nat
  deriving DecidableEq, Repr

/-- The pixel without its alpha. -/
def Pixel.colour (p : Pixel) : Colour := ⟨p.r, p.g, p.b⟩

/-- Lane `k` of a word, bits [8k+7:8k] (R49). -/
def lane (w : Word) (k : Nat) : Byte := w.extractLsb' (8 * k) 8

/-- The pixel packed in a register: R in [7:0], G in [15:8], B in [23:16], A in [31:24] (R67). -/
def unpackPixel (w : Word) : Pixel := ⟨lane w 0, lane w 1, lane w 2, lane w 3⟩

/-- The packed form, the word (A, B, G, R) with A high (R13, R67). -/
def packPixel (p : Pixel) : Word := p.a ++ p.b ++ p.g ++ p.r

/-- The packed triple, lane R lowest and [31:24] zero (R13, R68). -/
def packTriple (t : Triple) : Word :=
  0#8 ++ BitVec.ofNat 8 t.b ++ BitVec.ofNat 8 t.g ++ BitVec.ofNat 8 t.r

/-! ### The encoder's functions -/

/-- The octal digit triple of a byte, most significant digit in lane R (R81). -/
def digits (v : Byte) : Triple := ⟨v.toNat / 64, v.toNat / 8 % 8, v.toNat % 8⟩

/-- The add-or-subtract rule (R83): strict and unsigned comparison. -/
def choose (c d : Nat) : Nat := if c < d then c + d else c - d

/-- `choose` on a stored channel. The result needs no narrowing (R84). -/
def chooseByte (c : Byte) (d : Nat) : Byte := BitVec.ofNat 8 (choose c.toNat d)

/-- Encode byte `v` into pixel `p`; alpha passes through (R85). -/
def encPixel (p : Pixel) (v : Byte) : Pixel :=
  let d := digits v
  ⟨chooseByte p.r d.r, chooseByte p.g d.g, chooseByte p.b d.b, p.a⟩

/-! ### The decoder's functions -/

/-- |a − b|, exact (R96). -/
def absdiff8 (a b : Byte) : Nat := ((a.toNat : Int) - (b.toNat : Int)).natAbs

/-- The three absolute channel differences (R98). -/
def differences (l k : Colour) : Triple := ⟨absdiff8 l.r k.r, absdiff8 l.g k.g, absdiff8 l.b k.b⟩

/-- The octal reassembly: a byte, or nothing where the triple is malformed (R97). -/
def assemble (d : Triple) : Option Byte :=
  if d.r > 7 ∨ d.g > 7 ∨ d.b > 7 then none
  else if 64 * d.r + 8 * d.g + d.b > 255 then none
  else some (BitVec.ofNat 8 (64 * d.r + 8 * d.g + d.b))

/-- What decoding one pixel gives: a byte, or the malformed differences (R98). -/
inductive Decoded where
  | ok (v : Byte)
  | malformed (d : Triple)
  deriving DecidableEq, Repr

/-- `decPixel` on the three colour channels, which are all it reads (R98, R99). -/
def decColour (l k : Colour) : Decoded :=
  match assemble (differences l k) with
  | some v => .ok v
  | none => .malformed (differences l k)

/-- Decode lock pixel `l` against key pixel `k` (R98). -/
def decPixel (l k : Pixel) : Decoded := decColour l.colour k.colour

/-! ### Dimensions and the capacity -/

/-- The width field of a dimension register, bits [15:0] (R23, R24, R70). -/
def dimWidth (d : Word) : Half := d.extractLsb' 0 16

/-- The height field of a dimension register, bits [31:16] (R23, R24, R70). -/
def dimHeight (d : Word) : Half := d.extractLsb' 16 16

/-- CAPACITY: the product of the zero-extended fields of IMG_DIM (R77). -/
def capacityWord (s : State) : Word := (dimWidth s.imgDim).setWidth 32 * (dimHeight s.imgDim).setWidth 32

/-- N = W*H, the number of pixels of the frame (R8, R79). -/
def pixelCount (s : State) : Nat := (dimWidth s.imgDim).toNat * (dimHeight s.imgDim).toNat

/-- The raster indices i = x + y*W, y outer and x inner (R14, R80). -/
def raster (w h : Nat) : List Nat :=
  (List.range h).flatMap fun y => (List.range w).map fun x => x + y * w

/-- The raster indices of the frame IMG_DIM describes. -/
def frameIndices (s : State) : List Nat := raster (dimWidth s.imgDim).toNat (dimHeight s.imgDim).toNat

/-! ### Buffers -/

/-- MEM_BYTES (R8, R46). -/
def State.memBytes (s : State) : Nat := s.memTop.toNat + 1

/-- A buffer of a frame command: the bytes base … base+size−1 (R53). -/
structure Buffer where
  base : Nat
  size : Nat
  deriving DecidableEq, Repr

/-- Is `a` a byte of the buffer? -/
def Buffer.holds (x : Buffer) (a : Nat) : Bool := decide (x.base ≤ a) && decide (a < x.base + x.size)

/-- InRange (R52): a zero-size range is in range at any base. -/
def Buffer.inRange (x : Buffer) (memBytes : Nat) : Bool :=
  decide (x.size = 0) || decide (x.base + x.size ≤ memBytes)

/-- The two buffers share no byte (R54). -/
def Buffer.apart (x y : Buffer) : Bool :=
  decide (x.size = 0) || decide (y.size = 0) ||
    decide (x.base + x.size ≤ y.base) || decide (y.base + y.size ≤ x.base)

/-- The cover range of ENCODE (R53). -/
def coverBuffer (s : State) : Buffer := ⟨s.coverBase.toNat, 4 * pixelCount s⟩

/-- The payload range of ENCODE (R53). -/
def payloadBuffer (s : State) : Buffer := ⟨s.payloadBase.toNat, s.len.toNat⟩

/-- The lock range of ENCODE and DECODE (R53). -/
def lockBuffer (s : State) : Buffer := ⟨s.lockBase.toNat, 4 * pixelCount s⟩

/-- The key range of DECODE (R53). -/
def keyBuffer (s : State) : Buffer := ⟨s.keyBase.toNat, 4 * pixelCount s⟩

/-- The out range of DECODE (R53). -/
def outBuffer (s : State) : Buffer := ⟨s.outBase.toNat, pixelCount s⟩

/-- R89 (b): the three ranges of ENCODE are in range. -/
def encodeInRange (s : State) : Bool :=
  (coverBuffer s).inRange s.memBytes && (lockBuffer s).inRange s.memBytes
    && (payloadBuffer s).inRange s.memBytes

/-- R54 for ENCODE: in place or apart from the cover, and apart from the payload. -/
def encodeKeepsApart (s : State) : Bool :=
  (decide (s.lockBase = s.coverBase) || (lockBuffer s).apart (coverBuffer s))
    && (lockBuffer s).apart (payloadBuffer s)

/-- R103 (b): the three ranges of DECODE are in range. -/
def decodeInRange (s : State) : Bool :=
  (lockBuffer s).inRange s.memBytes && (keyBuffer s).inRange s.memBytes
    && (outBuffer s).inRange s.memBytes

/-- R54 for DECODE: the out range is apart from the lock and the key range. -/
def decodeKeepsApart (s : State) : Bool :=
  (outBuffer s).apart (lockBuffer s) && (outBuffer s).apart (keyBuffer s)

/-- R103 (a): the lock and key dimensions agree in width and height. -/
def dimensionsAgree (s : State) : Bool :=
  decide (dimWidth s.imgDim = dimWidth s.keyDim) && decide (dimHeight s.imgDim = dimHeight s.keyDim)

/-- ENCODE reaches its pixel loop but breaks R54. -/
def encodeBreach (s : State) : Bool :=
  decide (s.len.toNat ≤ pixelCount s) && encodeInRange s && !encodeKeepsApart s

/-- DECODE reaches its pixel loop but breaks R54. -/
def decodeBreach (s : State) : Bool := dimensionsAgree s && decodeInRange s && !decodeKeepsApart s

/-- The command in the latch would break R54. -/
def latchedBreach (s : State) : Bool :=
  match Sys2Proof.decode s.latch with
  | .encode => encodeBreach s
  | .decode => decodeBreach s
  | .nop | .digits | .encpx | .decpx | .illegal _ => false

/-- The ranges the latched command reads (R53). -/
def readBuffers (s : State) : List Buffer :=
  match Sys2Proof.decode s.latch with
  | .encode => [coverBuffer s, payloadBuffer s]
  | .decode => [lockBuffer s, keyBuffer s]
  | .nop | .digits | .encpx | .decpx | .illegal _ => []

/-- The ranges the latched command writes (R53, R154). -/
def writeBuffers (s : State) : List Buffer :=
  match Sys2Proof.decode s.latch with
  | .encode => [lockBuffer s]
  | .decode => [outBuffer s]
  | .nop | .digits | .encpx | .decpx | .illegal _ => []

/-- R56 (b): while a frame command runs the host must not read a byte of its write ranges (log 12). -/
def hostReadRaces (s : State) (a : Nat) : Bool := s.busy && (writeBuffers s).any (·.holds a)

/-- R56 (b): while a frame command runs the host must not write a byte of any of its ranges (log 12). -/
def hostWriteRaces (s : State) (a : Nat) : Bool :=
  s.busy && (readBuffers s ++ writeBuffers s).any (·.holds a)

end Sys2Proof.Machine
end

