-- ==== Sys2Proof/Machine/Ops.lean ====
section
/-! DEFINITION. The shared operations: the data memory (spec/20_memory.md R46 to R48), acceptance and completion
(spec/43_control.md R114, R115), taking an error (spec/00_scope.md R12, spec/60_exceptions.md R131, R139), the overrun
(R116, R117) and the reset (spec/70_reset_and_hazards.md R152 to R154). -/

namespace Sys2Proof.Machine

/-! ### Data memory -/

/-- What a byte that nothing has written reads as (log 2). -/
def Memory.unlisted : Byte := 0

/-- The byte at address `a` (R11, R46). -/
def Memory.read : Memory → Nat → Byte
  | [], _ => Memory.unlisted
  | c :: m, a => if c.1 = a then c.2 else Memory.read m a

/-- Put an entry before the first one with a higher address. -/
def Memory.insert (a : Nat) (v : Byte) : Memory → Memory
  | [] => [(a, v)]
  | c :: m => if a < c.1 then (a, v) :: c :: m else c :: Memory.insert a v m

/-- Store the byte `v` at address `a` (R11, R46), keeping the canonical form. -/
def Memory.write (m : Memory) (a : Nat) (v : Byte) : Memory :=
  let rest := m.filter fun c => c.1 != a
  if v = Memory.unlisted then rest else Memory.insert a v rest

/-- The canonical form: addresses strictly rising, no entry equal to what an unlisted address reads as. -/
def Memory.wf : Memory → Bool
  | [] => true
  | c :: m => (c.2 != Memory.unlisted) && m.all (fun e => decide (c.1 < e.1)) && Memory.wf m

/-- Every listed address is a byte the memory has: below MEM_BYTES (R46). -/
def Memory.below (m : Memory) (memBytes : Nat) : Bool := m.all fun c => decide (c.1 < memBytes)

/-- The three colour bytes of the pixel at address `a`, the alpha byte not read (R47, R104). -/
def Memory.readColour (m : Memory) (a : Nat) : Colour := ⟨m.read a, m.read (a + 1), m.read (a + 2)⟩

/-- The four bytes of the pixel at address `a`, in the order R, G, B, A (R47, R90). -/
def Memory.readPixel (m : Memory) (a : Nat) : Pixel :=
  ⟨m.read a, m.read (a + 1), m.read (a + 2), m.read (a + 3)⟩

/-- Write the four bytes of a pixel at address `a`, in the order R, G, B, A (R47, R90). -/
def Memory.writePixel (m : Memory) (a : Nat) (p : Pixel) : Memory :=
  (((m.write a p.r).write (a + 1) p.g).write (a + 2) p.b).write (a + 3) p.a

/-- The bytes of a buffer that the memory has, lowest first (R46). -/
def Buffer.addresses (x : Buffer) (memBytes : Nat) : List Nat :=
  List.range' x.base (min x.size (memBytes - x.base))

/-- Write a free byte at each of the addresses. -/
def Memory.free (m : Memory) (draw : Nat) (addrs : List Nat) : Memory :=
  addrs.foldl (fun m a => m.write a (Config.freeByte draw a)) m

/-- Every byte of the buffer becomes any value (R107, R154; log 8, log 9). -/
def freeBuffer (x : Buffer) (s : State) : State :=
  { s with mem := s.mem.free s.draws (x.addresses s.memBytes), draws := s.draws + 1 }

/-! ### The life of a command -/

/-- Acceptance of command word `w` (R114). -/
def accept (w : Word) (s : State) : State :=
  { s with latch := w, phase := .busy, done := false, err := .none }

/-- The command that is running: the latched word, decoded (R115). -/
def running (s : State) : Instr := Sys2Proof.decode s.latch

/-- The end of every command (R115, R131): the error code, ERR_IDX and ERR_INFO are written, BUSY falls, DONE rises. -/
def finish (e : ErrCode) (index info : Word) (s : State) : State :=
  { s with err := e, errIdx := index, errInfo := info, phase := .idle, done := true }

/-- `complete`: the end of a command without an error (R12). -/
def complete (s : State) : State := finish .none 0 0 s

/-- `raise`, for the errors that record nothing else (R12, R131, R139). Nothing is saved and control goes nowhere: the
block has no vector and no handler. There is no return: the host acknowledges by clearing DONE (R140, `clearStatus`). -/
def raise (e : ErrCode) (s : State) : State := finish e 0 0 s

/-- `raise MalformedPayload(i, d)`: the pixel index and the packed differences are recorded (R131, R134). -/
def raiseMalformed (i : Nat) (d : Triple) (s : State) : State :=
  finish .malformedPayload (BitVec.ofNat 32 i) (packTriple d) s

/-! ### Overrun and reset -/

/-- A host write that arrives while BUSY is lost and sets OVR (R116, R117). -/
def overrun (s : State) : State := { s with ovr := true }

/-- A busy-gated write: `t` is the state the write makes while the engine is idle (R117). -/
def gated (s t : State) : State := if s.busy then overrun s else t

/-- Every piece of block state takes its reset value; memory, its size and the host's side stay (R44, R154). -/
def blockReset (s : State) : State :=
  { State.reset with
    mem := s.mem, memTop := s.memTop, script := s.script, lastRead := s.lastRead, sched := s.sched, draws := s.draws }

/-- What abandoning the running command does to the memory: every byte of its write range becomes any value (R154). -/
def abandon (s : State) : State :=
  if s.busy then (writeBuffers s).foldl (fun t x => freeBuffer x t) s else s

/-- The state after reset of a platform whose memory has `memTop` + 1 bytes: the OPEN parameter MEM_BYTES as an
argument (R8; log 1). -/
def State.powerUp (memTop : Word) : State := { State.reset with memTop := memTop }

/-- A reset, hardware or soft (R152, R153). A reset that would abandon a command in breach of R54 is refused (log 11). -/
def resetBlock (s : State) : Host.Outcome State Fault Refusal :=
  if s.busy && latchedBreach s then .refused .bufferOverlap else .next (blockReset (abandon s))

end Sys2Proof.Machine
end

