-- ==== Sys2Proof/Machine/Control.lean ====
section
/-! DEFINITION. The meanings of the control commands NOP and ILLEGAL (spec/43_control.md R121, R122). -/

namespace Sys2Proof.Machine

/-- NOP completes with NONE and does nothing else (R121). -/
def execNop (s : State) : Host.Outcome State Fault Refusal := .next (complete s)

/-- ILLEGAL always raises IllegalCommand (R122). -/
def execIllegal (s : State) : Host.Outcome State Fault Refusal := .next (raise .illegalCommand s)

end Sys2Proof.Machine
end

