-- ==== Sys2Proof/Machine/Decoder.lean ====
section
/-! DEFINITION. The meanings of DECPX and DECODE (spec/42_decoder.md). -/

namespace Sys2Proof.Machine

/-- DECPX: the lock pixel PIX_A against the key pixel PIX_B; RES is written on success only (R101). -/
def execDecpx (s : State) : Host.Outcome State Fault Refusal :=
  match decPixel (unpackPixel s.pixA) (unpackPixel s.pixB) with
  | .ok v => .next (complete { s with res := v.setWidth 32 })
  | .malformed d => .next (raiseMalformed 0 d s)

/-- Pixel `i` of the frame, decoded from the memory (R102, R104). -/
def decodedAt (s : State) (i : Nat) : Decoded :=
  decColour (s.mem.readColour (s.lockBase.toNat + 4 * i)) (s.mem.readColour (s.keyBase.toNat + 4 * i))

/-- IDX takes the raster index (R102). -/
def visit (i : Nat) (s : State) : State := { s with idx := BitVec.ofNat 32 i }

/-- The out byte of pixel `i` is written, and LNZ follows the last non-zero byte (R102, R105). -/
def recover (i : Nat) (v : Byte) (s : State) : State :=
  { s with
    mem := s.mem.write (s.outBase.toNat + i) v
    lnz := if v ≠ 0 then BitVec.ofNat 32 (i + 1) else s.lnz }

/-- The pixel loop of DECODE over the given raster indices: the state it leaves, and the first malformed pixel with its
differences, which ends the loop (R102, R107). -/
def decodeLoop : List Nat → State → State × Option (Nat × Triple)
  | [], s => (s, none)
  | i :: is, s =>
    match decodedAt (visit i s) i with
    | .ok v => decodeLoop is (recover i v (visit i s))
    | .malformed d => (visit i s, some (i, d))

/-- How DECODE ends (R102): OUT_LEN takes LNZ; or OUT_LEN is 0 and the out range is any value (R107). -/
def decodeEnd : State × Option (Nat × Triple) → State
  | (s, none) => complete { s with outLen := s.lnz }
  | (s, some (i, d)) => raiseMalformed i d (freeBuffer (outBuffer s) { s with outLen := 0 })

/-- DECODE: the dimension check, the range checks, then the pixel loop (R102, R103); a breach of R54 is refused (log 10). -/
def execDecode (s : State) : Host.Outcome State Fault Refusal :=
  if !dimensionsAgree s then .next (raise .dimensionMismatch { s with outLen := 0 })
  else if !decodeInRange s then .next (raise .rangeFault { s with outLen := 0 })
  else if !decodeKeepsApart s then .refused .bufferOverlap
  else .next (decodeEnd (decodeLoop (frameIndices s) { s with lnz := 0 }))

end Sys2Proof.Machine
end

