-- ==== Sys2Proof/Machine/Encoder.lean ====
section
/-! DEFINITION. The meanings of DIGITS, ENCPX and ENCODE (spec/41_encoder.md). -/

namespace Sys2Proof.Machine

/-- DIGITS: RES takes the packed digit triple of BYTE_IN (R86). -/
def execDigits (s : State) : Host.Outcome State Fault Refusal :=
  .next (complete { s with res := packTriple (digits s.byteIn) })

/-- ENCPX: RES takes the packed lock pixel of PIX_A and BYTE_IN (R87). -/
def execEncpx (s : State) : Host.Outcome State Fault Refusal :=
  .next (complete { s with res := packPixel (encPixel (unpackPixel s.pixA) s.byteIn) })

/-- pb(i): the payload byte of pixel `i`, the neutral byte 0 from index LEN on, where the payload is not read (R80). -/
def payloadByte (s : State) (i : Nat) : Byte :=
  if i < s.len.toNat then s.mem.read (s.payloadBase.toNat + i) else 0

/-- One turn of the pixel loop of ENCODE, in the access order of R90 (R88). -/
def encodeAt (s : State) (i : Nat) : State :=
  { s with
    idx := BitVec.ofNat 32 i
    mem := s.mem.writePixel (s.lockBase.toNat + 4 * i)
      (encPixel (s.mem.readPixel (s.coverBase.toNat + 4 * i)) (payloadByte s i)) }

/-- The pixel loop of ENCODE over the given raster indices (R88). -/
def encodeLoop (is : List Nat) (s : State) : State := is.foldl encodeAt s

/-- ENCODE: the capacity check, the range checks, then the pixel loop (R88, R89); a breach of R54 is refused (log 10). -/
def execEncode (s : State) : Host.Outcome State Fault Refusal :=
  if s.len.toNat > pixelCount s then .next (raise .capacityExceeded s)
  else if !encodeInRange s then .next (raise .rangeFault s)
  else if !encodeKeepsApart s then .refused .bufferOverlap
  else .next (complete (encodeLoop (frameIndices s) s))

end Sys2Proof.Machine
end

