-- ==== Sys2Proof/Machine/HostInterface.lean ====
section
/-! DEFINITION. The host's side: the register window (spec/10_state.md R16 to R38), register reads and writes
(spec/43_control.md R113 to R120, R128 to R130) and the host's own data-memory accesses (spec/20_memory.md R56,
spec/30_encoding.md R74, R75). -/

namespace Sys2Proof.Machine

/-- The offset of a register in the window (R16). -/
def Reg.offset : Reg → Word
  | .id          => 0x000
  | .ctrl        => 0x004
  | .status      => 0x008
  | .cmd         => 0x00C
  | .imgDim      => 0x010
  | .keyDim      => 0x014
  | .capacity    => 0x018
  | .len         => 0x01C
  | .coverBase   => 0x020
  | .payloadBase => 0x024
  | .lockBase    => 0x028
  | .keyBase     => 0x02C
  | .outBase     => 0x030
  | .outLen      => 0x034
  | .errIdx      => 0x038
  | .errInfo     => 0x03C
  | .pixA        => 0x040
  | .pixB        => 0x044
  | .byteIn      => 0x048
  | .res         => 0x04C

/-- The defined registers in the order of R16. -/
def allRegs : List Reg :=
  [.id, .ctrl, .status, .cmd, .imgDim, .keyDim, .capacity, .len, .coverBase, .payloadBase, .lockBase, .keyBase, .outBase,
    .outLen, .errIdx, .errInfo, .pixA, .pixB, .byteIn, .res]

/-- The register at an offset, none at a reserved slot (R16). -/
def regAt (off : Word) : Option Reg := allRegs.find? fun r => r.offset == off

/-- The access is an aligned 32-bit access of the 256-byte window (R50, R128; log 14). -/
def supported (width : Width) (off : Word) : Bool :=
  decide (width = .word) && decide (off.toNat < 256) && decide (off.toNat % 4 = 0)

/-- The value of the constant register ID (R18). -/
def idWord : Word := 0x53540001

/-- What a host read of a register returns (R16 to R38, R78, R113). -/
def regRead (r : Reg) (s : State) : Word :=
  match r with
  | .id          => idWord
  | .ctrl        => ctrlWord s
  | .status      => statusWord s
  | .cmd         => 0
  | .imgDim      => s.imgDim
  | .keyDim      => s.keyDim
  | .capacity    => capacityWord s
  | .len         => s.len
  | .coverBase   => s.coverBase
  | .payloadBase => s.payloadBase
  | .lockBase    => s.lockBase
  | .keyBase     => s.keyBase
  | .outBase     => s.outBase
  | .outLen      => s.outLen
  | .errIdx      => s.errIdx
  | .errInfo     => s.errInfo
  | .pixA        => s.pixA
  | .pixB        => s.pixB
  | .byteIn      => s.byteIn.setWidth 32
  | .res         => s.res

/-- What a host read at an offset returns: a reserved slot reads 0 (R16, R113). -/
def windowRead (off : Word) (s : State) : Word :=
  match regAt off with
  | some r => regRead r s
  | none => 0

/-- A CMD write: acceptance while idle, an overrun while busy (R114, R116). -/
def writeCmd (w : Word) (s : State) : State := if s.busy then overrun s else accept w s

/-- A CTRL write: the soft reset if SRST is written 1, else IE takes bit 0 (R120). -/
def writeCtrl (v : Word) (s : State) : Host.Outcome State Fault Refusal :=
  if v.getLsbD 1 then resetBlock s else .next { s with ie := v.getLsbD 0 }

/-- What a host write of `v` to a register does (R114, R116 to R120). -/
def regWrite (r : Reg) (v : Word) (s : State) : Host.Outcome State Fault Refusal :=
  match r with
  | .ctrl        => writeCtrl v s
  | .status      => .next (clearStatus v s)
  | .cmd         => .next (writeCmd v s)
  | .imgDim      => .next (gated s { s with imgDim := v })
  | .keyDim      => .next (gated s { s with keyDim := v })
  | .len         => .next (gated s { s with len := v })
  | .coverBase   => .next (gated s { s with coverBase := v })
  | .payloadBase => .next (gated s { s with payloadBase := v })
  | .lockBase    => .next (gated s { s with lockBase := v })
  | .keyBase     => .next (gated s { s with keyBase := v })
  | .outBase     => .next (gated s { s with outBase := v })
  | .pixA        => .next (gated s { s with pixA := v })
  | .pixB        => .next (gated s { s with pixB := v })
  | .byteIn      => .next (gated s { s with byteIn := v.setWidth 8 })
  | .id | .capacity | .outLen | .errIdx | .errInfo | .res => .next s

/-- What a host write at an offset does: a reserved slot ignores it (R118). -/
def windowWrite (off v : Word) (s : State) : Host.Outcome State Fault Refusal :=
  match regAt off with
  | some r => regWrite r v s
  | none => .next s

/-- A register read: the value goes to the host and no block state changes (R113). -/
def hostRd (width : Width) (off : Word) (s : State) : Host.Outcome State Fault Refusal :=
  if supported width off then .next { s with lastRead := windowRead off s }
  else .refused (.unsupportedAccess width off)

/-- A register write (R113). -/
def hostWr (width : Width) (off v : Word) (s : State) : Host.Outcome State Fault Refusal :=
  if supported width off then windowWrite off v s else .refused (.unsupportedAccess width off)

/-- The host reads a data-memory byte (R56, R74; log 13). -/
def hostMrd (a : Word) (s : State) : Host.Outcome State Fault Refusal :=
  if a.toNat ≥ s.memBytes then .fault (.hostByteAbsent a)
  else if hostReadRaces s a.toNat then .refused (.hostRace a)
  else .next { s with lastRead := (s.mem.read a.toNat).setWidth 32 }

/-- The host writes a data-memory byte, complete at its step (R56, R74; log 13, log 17). -/
def hostMwr (a : Word) (b : Byte) (s : State) : Host.Outcome State Fault Refusal :=
  if a.toNat ≥ s.memBytes then .fault (.hostByteAbsent a)
  else if hostWriteRaces s a.toNat then .refused (.hostRace a)
  else .next { s with mem := s.mem.write a.toNat b }

/-- One `rd STATUS` of the polling loop: the loop goes on while the value read has bit 0 set (R75; log 16). -/
def hostWait (s : State) : State :=
  let t := { s with lastRead := statusWord s }
  if (statusWord s).getLsbD 0 then { t with script := .wait :: s.script } else t

/-- One operation of the host; the script no longer holds it (R74, R75). -/
def hostOp (op : HostOp) (s : State) : Host.Outcome State Fault Refusal :=
  match op with
  | .rd width off => hostRd width off s
  | .wr width off v => hostWr width off v s
  | .mrd a => hostMrd a s
  | .mwr a b => hostMwr a b s
  | .wait => .next (hostWait s)

/-- The host's turn: the first operation of its script, in order (R58, R74; log 19). A host with nothing to do
changes nothing (log 7). -/
def hostTurn (s : State) : Host.Outcome State Fault Refusal :=
  match s.script with
  | [] => .next s
  | op :: rest => hostOp op { s with script := rest }

end Sys2Proof.Machine
end

