-- ==== Sys2Proof/Machine/Engine.lean ====
section
/-! DEFINITION. One turn of an agent (spec/43_control.md R113, R115, R125). -/

namespace Sys2Proof.Machine

/-- The engine's turn: the completion step, enabled exactly while busy (R115). An idle engine changes nothing
(R151; log 7). -/
def engineTurn (s : State) : Host.Outcome State Fault Refusal :=
  match s.phase with
  | .busy => exec (running s) s
  | .idle => .next s

/-- Where no turn is laid down: a running command completes, and otherwise the host goes on (R125; log 6). -/
def defaultTurn (s : State) : Host.Outcome State Fault Refusal :=
  match s.phase with
  | .busy => exec (running s) s
  | .idle => hostTurn s

/-- The turn of the agent that is named; a hardware reset is one step (log 18). -/
def takeTurn (t : Turn) (s : State) : Host.Outcome State Fault Refusal :=
  match t with
  | .host => hostTurn s
  | .engine => engineTurn s
  | .reset => resetBlock s

/-- Put command word `w` where the next step runs it: accepted (R114), with the engine's turn first (log 15). -/
def placeCommand (w : Word) (s : State) : State := { accept w s with sched := .engine :: s.sched }

end Sys2Proof.Machine
end

