-- ==== Sys2Proof/Machine/Step.lean ====
section
/-! DEFINITION. One step of the machine: exactly one of the steps of spec/43_control.md R113, chosen by the schedule. -/

namespace Sys2Proof.Machine

/-- One step. The first turn of the schedule is taken off and taken; where none is left, `defaultTurn` says who moves. -/
def step (s : State) : Host.Outcome State Fault Refusal :=
  match s.sched with
  | [] => defaultTurn s
  | t :: rest => takeTurn t { s with sched := rest }

/-- `s` with the instruction of `nbits` bits `w` placed so that the very next step runs it: accepted as by a CMD write,
with the engine to move (log 15). -/
def State.withFetchWord (s : State) (nbits w : Nat) : State :=
  placeCommand (BitVec.ofNat 32 (w % 2 ^ nbits)) s

end Sys2Proof.Machine
end

