-- ==== Sys2Proof/Machine/Script.lean ====
section
/-! DEFINITION. Host scripts: the pseudo-instructions and the encoding of a script as bus transactions
(spec/30_encoding.md R74 to R76). -/

namespace Sys2Proof.Machine.Script

/-- `rd REG`. -/
def rd (r : Reg) : List HostOp := [.rd .word r.offset]

/-- `wr REG, v`. -/
def wr (r : Reg) (v : Word) : List HostOp := [.wr .word r.offset v]

/-- `cmd NAME`: `wr CMD, word(NAME)`. -/
def cmd (i : Instr) : List HostOp := wr .cmd (Sys2Proof.encode i)

/-- `wait`. -/
def wait : List HostOp := [.wait]

/-- `run NAME`: `cmd NAME` then `wait`. -/
def run (i : Instr) : List HostOp := cmd i ++ wait

/-- `ack`: clear DONE. -/
def ack : List HostOp := wr .status 0x00000002

/-- `clrovr`: clear OVR. -/
def clrovr : List HostOp := wr .status 0x00000004

/-- `srst`: soft reset. -/
def srst : List HostOp := wr .ctrl 0x00000002

/-- `dim REG, w, h`: the word (h << 16) | w. -/
def dim (r : Reg) (w h : Half) : List HostOp := wr r (h ++ w)

/-- `mwrpix a, p`: four byte writes, lane R first (log 20). -/
def mwrpix (a p : Word) : List HostOp :=
  [.mwr a (lane p 0), .mwr (a + 1) (lane p 1), .mwr (a + 2) (lane p 2), .mwr (a + 3) (lane p 3)]

/-- `mrdpix a`: four byte reads (log 20). -/
def mrdpix (a : Word) : List HostOp := [.mrd a, .mrd (a + 1), .mrd (a + 2), .mrd (a + 3)]

/-- The encoding of a script: the (offset, data) pair of each register write, in order (R76). -/
def transactions (ops : List HostOp) : List (Word × Word) :=
  ops.filterMap fun
    | .wr _ off v => some (off, v)
    | .rd _ _ | .mrd _ | .mwr _ _ | .wait => none

end Sys2Proof.Machine.Script
end

