-- ==== Sys2Proof/Safety.lean ====
section
/-! DEFINITION. What counts as a safe state and a safe run, in the terms the statements use. -/

namespace Sys2Proof.Machine

/-- ENCODE reaches and may run its pixel loop: the payload fits, the ranges are in range (R89) and R54 is kept. -/
def encodeReady (s : State) : Bool :=
  decide (s.len.toNat ≤ pixelCount s) && encodeInRange s && encodeKeepsApart s

/-- DECODE reaches and may run its pixel loop: the dimensions agree, the ranges are in range (R103) and R54 is kept. -/
def decodeReady (s : State) : Bool := dimensionsAgree s && decodeInRange s && decodeKeepsApart s

/-- What one step does (R113): one host operation, the completion step, a reset, or nothing at all. -/
inductive Action where
  | host (op : HostOp)
  | completion
  | reset
  | nothing
  deriving DecidableEq, Repr

/-- What the host does when it has the turn. -/
def hostAction (s : State) : Action :=
  match s.script with
  | op :: _ => .host op
  | [] => .nothing

/-- What the next step does. -/
def nextAction (s : State) : Action :=
  match s.sched with
  | .host :: _ => hostAction s
  | .engine :: _ => if s.busy then .completion else .nothing
  | .reset :: _ => .reset
  | [] => if s.busy then .completion else hostAction s

/-- The state with the turn taken off the schedule and, where the host moves, its operation off the script. -/
def turnTaken (s : State) : State :=
  match nextAction s with
  | .host _ => { s with sched := s.sched.tail, script := s.script.tail }
  | .completion | .reset | .nothing => { s with sched := s.sched.tail }

/-- The next step is a word write of a value with bit `n` set to the register `r`. -/
def nextSetsBit (r : Reg) (n : Nat) (s : State) : Prop :=
  ∃ v : Word, nextAction s = .host (.wr .word r.offset v) ∧ v.getLsbD n = true

/-- The next step resets the block: the reset line (R152), or CTRL.SRST (R153). -/
def nextResets (s : State) : Prop := nextAction s = .reset ∨ nextSetsBit .ctrl 1 s

/-- What R108 and R109 start from: `t` is what an ENCODE of `s` without error left; in `u`, DECODE may run, the lock
buffer holds the bytes ENCODE wrote, and the key buffer holds the bytes of the unmodified cover. -/
def RoundTripSetup (s t u : State) : Prop :=
  exec .encode s = .next t ∧ t.err = .none ∧ decodeReady u = true ∧ u.imgDim = s.imgDim ∧
  (∀ k, k < 4 * pixelCount s →
    u.mem.read (u.lockBase.toNat + k) = t.mem.read (s.lockBase.toNat + k) ∧
    u.mem.read (u.keyBase.toNat + k) = s.mem.read (s.coverBase.toNat + k))

/-- The invariant of the machine. -/
structure State.Inv (s : State) : Prop where
  /-- The memory list is in its canonical form. -/
  memCanonical : s.mem.wf = true
  /-- Only bytes that exist are listed (R46). -/
  memExists : s.mem.below s.memBytes = true
  /-- While BUSY, DONE = 0 and ERR = NONE (R114, R130). -/
  busyView : s.phase = .busy → s.done = false ∧ s.err = .none
  /-- Unless a command is running, ERR_IDX and ERR_INFO are 0 for every code but MALFORMED_PAYLOAD (R33, R34, R131). -/
  recordsZero : s.phase = .idle → s.err ≠ .malformedPayload → s.errIdx = 0 ∧ s.errInfo = 0
  /-- A recorded triple of differences is one that no byte has (R97, R134). -/
  recordsMalformed : s.err = .malformedPayload →
    3 < (lane s.errInfo 0).toNat ∨ 7 < (lane s.errInfo 1).toNat ∨ 7 < (lane s.errInfo 2).toNat
  /-- Bits [31:24] of ERR_INFO are 0 (R34). -/
  infoTopZero : lane s.errInfo 3 = 0
  /-- OUT_LEN is no longer than the largest frame (R32, R77). -/
  outLenBound : s.outLen.toNat ≤ 65535 * 65535

/-- The step from `s` is defined: no fault and no refusal. -/
def StepSafe (s : State) : Prop := ∃ t, step s = .next t

/-- The first `k` steps from `s` are all defined. -/
def RunSafe : Nat → State → Prop
  | 0, _ => True
  | k + 1, s => ∃ t, step s = .next t ∧ RunSafe k t

end Sys2Proof.Machine
end

