-- ==== Sys2Proof/Certificates/Slice0/Obligations.lean ====
section
/-! DEFINITION. The statements for the provers, from the numbered rules of spec/. A statement about a next state gives
the frame as an equation: the fields it does not write anew are those of the state before. The hidden IDX and LNZ and the
count of draws are the model's business after a completion (log 4, log 8): no statement gives them a value. -/

open Sys2Proof Sys2Proof.Machine

/-! ### Encoding -/

/-- R65, R66: each word of the opcode map decodes to its command, every other word to ILLEGAL; so decoding is total. -/
def Obligations.OpcodeMapDecodes : Prop :=
  decode 0x00000000 = .nop ∧ decode 0x00000001 = .digits ∧ decode 0x00000002 = .encpx ∧
  decode 0x00000003 = .decpx ∧ decode 0x00000010 = .encode ∧ decode 0x00000011 = .decode ∧
  ∀ w : Word, (w.extractLsb' 8 24 ≠ 0 ∨
      (w.extractLsb' 0 8 ≠ 0x00 ∧ w.extractLsb' 0 8 ≠ 0x01 ∧ w.extractLsb' 0 8 ≠ 0x02 ∧ w.extractLsb' 0 8 ≠ 0x03 ∧
        w.extractLsb' 0 8 ≠ 0x10 ∧ w.extractLsb' 0 8 ≠ 0x11)) →
    decode w = .illegal w

/-- Decoding inverts encoding on well-formed commands, and encoding inverts decoding on every word (R64 to R66). -/
def Obligations.DecodeEncodeAgree : Prop :=
  (∀ i : Instr, i.wellFormed = true → decode (encode i) = i) ∧
  ∀ w : Word, (decode w).wellFormed = true ∧ encode (decode w) = w

/-! ### Pure functions -/

/-- R81: the digit triple of a byte is its three octal digits, which are its bits [7:6], [5:3] and [2:0]. -/
def Obligations.DigitTripleIsOctal : Prop :=
  ∀ v : Byte,
    (digits v).r = v.toNat / 64 ∧ (digits v).r = (v.extractLsb' 6 2).toNat ∧ (digits v).r ≤ 3 ∧
    (digits v).g = v.toNat / 8 % 8 ∧ (digits v).g = (v.extractLsb' 3 3).toNat ∧ (digits v).g ≤ 7 ∧
    (digits v).b = v.toNat % 8 ∧ (digits v).b = (v.extractLsb' 0 3).toNat ∧ (digits v).b ≤ 7

/-- R82: `digits` is injective, a triple with lane R at most 3 and the others at most 7 is the image of exactly one
byte, 64*dR + 8*dG + dB, and a triple with lane R at least 4 is the image of none and is rejected by the decoder. -/
def Obligations.DigitTripleInverse : Prop :=
  (∀ v w : Byte, digits v = digits w → v = w) ∧
  (∀ v : Byte, 64 * (digits v).r + 8 * (digits v).g + (digits v).b = v.toNat) ∧
  (∀ t : Triple, t.r ≤ 3 → t.g ≤ 7 → t.b ≤ 7 → ∃ v : Byte, digits v = t ∧ ∀ w, digits w = t → w = v) ∧
  ∀ t : Triple, 4 ≤ t.r → (∀ v : Byte, digits v ≠ t) ∧ assemble t = none

/-- R83, R84: the add-or-subtract rule, its bounds and its magnitude. -/
def Obligations.AddOrSubtractRule : Prop :=
  (∀ c d : Nat, c < d → choose c d = c + d) ∧
  (∀ c d : Nat, d ≤ c → choose c d = c - d) ∧
  (∀ c d : Nat, c ≤ 255 → d ≤ 7 →
    choose c d ≤ 255 ∧ ((choose c d : Int) - (c : Int)).natAbs = d ∧ (c < d → c ≤ 6 ∧ choose c d ≤ 13) ∧
    (d ≤ c → choose c d ≤ c)) ∧
  ∀ c : Nat, choose c 0 = c

/-- R96: the absolute difference of two channels is exact, at most 255, symmetric, and 0 exactly for equal channels. -/
def Obligations.AbsoluteDifference : Prop :=
  ∀ a b : Byte,
    (absdiff8 a b : Int) = |(a.toNat : Int) - (b.toNat : Int)| ∧ absdiff8 a b ≤ 255 ∧ absdiff8 a b = absdiff8 b a ∧
    (absdiff8 a b = 0 ↔ a = b)

/-- R97: a triple of differences reassembles to a byte exactly if lane R is at most 3 and the others at most 7, and the
byte is 64*dR + 8*dG + dB. -/
def Obligations.OctalReassembly : Prop :=
  ∀ d : Triple,
    (assemble d = none ↔ ¬(d.r ≤ 3 ∧ d.g ≤ 7 ∧ d.b ≤ 7)) ∧
    (d.r > 7 ∨ d.g > 7 ∨ d.b > 7 → assemble d = none) ∧
    (64 * d.r + 8 * d.g + d.b > 255 → assemble d = none) ∧
    (d.r ≤ 3 → d.g ≤ 7 → d.b ≤ 7 → ∃ v, assemble d = some v ∧ v.toNat = 64 * d.r + 8 * d.g + d.b)

/-- R100: decoding inverts encoding, pixel by pixel. -/
def Obligations.DecodingInvertsEncodingOfAPixel : Prop :=
  ∀ (k : Pixel) (v : Byte), decPixel (encPixel k v) k = .ok v

/-- R77, R78, R113: CAPACITY reads the exact product of the two fields of IMG_DIM, at most 0xFFFE0001, in either phase, and
a read of it changes no state of the block. That the value read is kept in `lastRead` is the model's choice (log 16). -/
def Obligations.CapacityIsTheExactProduct : Prop :=
  (∀ s : State,
    (windowRead 0x018 s).toNat = (s.imgDim.extractLsb' 0 16).toNat * (s.imgDim.extractLsb' 16 16).toNat ∧
    (windowRead 0x018 s).toNat ≤ 0xFFFE0001 ∧
    hostOp (.rd .word 0x018) s = .next { s with lastRead := windowRead 0x018 s }) ∧
  (∀ s : State, s.imgDim.extractLsb' 0 16 = 0 ∨ s.imgDim.extractLsb' 16 16 = 0 → windowRead 0x018 s = 0) ∧
  (∀ s : State, s.imgDim = 0x00010001 → windowRead 0x018 s = 1) ∧
  (∀ s : State, s.imgDim = 0xFFFFFFFF → windowRead 0x018 s = 0xFFFE0001) ∧
  ∀ s : State, s.imgDim = 0x00010002 → windowRead 0x018 s = 2

/-- R80: the raster visits of a frame, y outer and x inner, are i = 0, 1, …, N − 1 in this order, and pixel i carries
payload byte i below LEN and the neutral byte 0 from LEN on. -/
def Obligations.RasterOrderAndPayloadAssignment : Prop :=
  (∀ w h : Nat, ((List.range h).flatMap fun y => (List.range w).map fun x => x + y * w) = List.range (w * h)) ∧
  (∀ s : State, frameIndices s = List.range (pixelCount s)) ∧
  (∀ (s : State) (i : Nat), i < s.len.toNat → payloadByte s i = s.mem.read (s.payloadBase.toNat + i)) ∧
  ∀ (s : State) (i : Nat), s.len.toNat ≤ i → payloadByte s i = 0

/-! ### Pixel commands and control commands -/

/-- R121: NOP completes with NONE and changes nothing else. -/
def Obligations.NopCompletes : Prop :=
  encode .nop = 0x00000000 ∧
  ∀ s : State, exec .nop s =
    .next { s with err := .none, errIdx := 0, errInfo := 0, phase := .idle, done := true }

/-- R122, R136: a word outside the opcode map completes with ILLEGAL_COMMAND and changes nothing else. -/
def Obligations.IllegalWordCompletes : Prop :=
  ∀ (w : Word) (s : State), w.extractLsb' 8 24 ≠ 0 ∨
      (w.extractLsb' 0 8 ≠ 0x00 ∧ w.extractLsb' 0 8 ≠ 0x01 ∧ w.extractLsb' 0 8 ≠ 0x02 ∧ w.extractLsb' 0 8 ≠ 0x03 ∧
        w.extractLsb' 0 8 ≠ 0x10 ∧ w.extractLsb' 0 8 ≠ 0x11) →
    decode w = .illegal w ∧
    exec (decode w) s =
      .next { s with err := .illegalCommand, errIdx := 0, errInfo := 0, phase := .idle, done := true } ∧
    ErrCode.illegalCommand.code = 5

/-- R86: DIGITS writes the packed octal digits of BYTE_IN to RES, [2:0] in lane B, [5:3] in lane G, [7:6] in lane R. -/
def Obligations.DigitsWritesTheOctalTriple : Prop :=
  encode .digits = 0x00000001 ∧
  ∀ s : State, exec .digits s =
    .next { s with
      res := 0#8 ++ (s.byteIn.extractLsb' 0 3).setWidth 8 ++ (s.byteIn.extractLsb' 3 3).setWidth 8 ++
        (s.byteIn.extractLsb' 6 2).setWidth 8
      err := .none, errIdx := 0, errInfo := 0, phase := .idle, done := true }

/-- R87: ENCPX writes to RES the lock pixel of PIX_A and BYTE_IN: alpha copied, each colour channel c below its digit d
raised by d and every other lowered by d. -/
def Obligations.EncpxWritesTheLockPixel : Prop :=
  encode .encpx = 0x00000002 ∧
  ∀ s : State, ∃ r g b : Byte,
    exec .encpx s =
      .next { s with
        res := s.pixA.extractLsb' 24 8 ++ b ++ g ++ r
        err := .none, errIdx := 0, errInfo := 0, phase := .idle, done := true } ∧
    (let c := (s.pixA.extractLsb' 0 8).toNat; let d := s.byteIn.toNat / 64
     r.toNat = if c < d then c + d else c - d) ∧
    (let c := (s.pixA.extractLsb' 8 8).toNat; let d := s.byteIn.toNat / 8 % 8
     g.toNat = if c < d then c + d else c - d) ∧
    (let c := (s.pixA.extractLsb' 16 8).toNat; let d := s.byteIn.toNat % 8
     b.toNat = if c < d then c + d else c - d)

/-- R101: DECPX writes to RES the byte whose octal digits are the absolute differences of the channels of PIX_A and
PIX_B, if they are digits of a byte; else it raises MALFORMED_PAYLOAD with index 0 and the packed differences, and RES
stays. Alpha is not read. -/
def Obligations.DecpxDecodesOrReports : Prop :=
  encode .decpx = 0x00000003 ∧
  ∀ s : State,
    let dR := ((s.pixA.extractLsb' 0 8).toNat - (s.pixB.extractLsb' 0 8).toNat : Int).natAbs
    let dG := ((s.pixA.extractLsb' 8 8).toNat - (s.pixB.extractLsb' 8 8).toNat : Int).natAbs
    let dB := ((s.pixA.extractLsb' 16 8).toNat - (s.pixB.extractLsb' 16 8).toNat : Int).natAbs
    (dR ≤ 3 ∧ dG ≤ 7 ∧ dB ≤ 7 →
      exec .decpx s =
        .next { s with
          res := BitVec.ofNat 32 (64 * dR + 8 * dG + dB)
          err := .none, errIdx := 0, errInfo := 0, phase := .idle, done := true }) ∧
    (¬(dR ≤ 3 ∧ dG ≤ 7 ∧ dB ≤ 7) →
      exec .decpx s =
        .next { s with
          err := .malformedPayload, errIdx := 0
          errInfo := BitVec.ofNat 32 (dR + 256 * dG + 65536 * dB)
          phase := .idle, done := true })

/-! ### ENCODE -/

/-- R132: ENCODE with LEN > CAPACITY raises CAPACITY_EXCEEDED, whatever else is wrong, and touches no memory. -/
def Obligations.EncodeChecksCapacityFirst : Prop :=
  ErrCode.capacityExceeded.code = 1 ∧
  ∀ s : State, (windowRead 0x018 s).toNat < s.len.toNat →
    exec .encode s =
      .next { s with err := .capacityExceeded, errIdx := 0, errInfo := 0, phase := .idle, done := true }

/-- R135: a frame command with a buffer range out of range raises RANGE_FAULT, after the capacity check or the dimension
check and before any memory access; DECODE writes OUT_LEN = 0. -/
def Obligations.FrameCommandsCheckRanges : Prop :=
  ErrCode.rangeFault.code = 4 ∧
  (∀ s : State, s.len.toNat ≤ pixelCount s →
    (4 * pixelCount s ≠ 0 ∧ s.memBytes < s.coverBase.toNat + 4 * pixelCount s) ∨
    (4 * pixelCount s ≠ 0 ∧ s.memBytes < s.lockBase.toNat + 4 * pixelCount s) ∨
    (s.len.toNat ≠ 0 ∧ s.memBytes < s.payloadBase.toNat + s.len.toNat) →
    exec .encode s =
      .next { s with err := .rangeFault, errIdx := 0, errInfo := 0, phase := .idle, done := true }) ∧
  ∀ s : State, s.imgDim = s.keyDim →
    (4 * pixelCount s ≠ 0 ∧ s.memBytes < s.lockBase.toNat + 4 * pixelCount s) ∨
    (4 * pixelCount s ≠ 0 ∧ s.memBytes < s.keyBase.toNat + 4 * pixelCount s) ∨
    (pixelCount s ≠ 0 ∧ s.memBytes < s.outBase.toNat + pixelCount s) →
    exec .decode s =
      .next { s with
        outLen := 0, err := .rangeFault, errIdx := 0, errInfo := 0, phase := .idle, done := true }

/-- R88, R89, R90: ENCODE that passes its checks completes with NONE, every lock pixel is its cover pixel with its
payload byte encoded (0 from LEN on), and every byte outside the lock range is left alone. In place or not. -/
def Obligations.EncodeWritesTheLockImage : Prop :=
  ∀ s : State, encodeReady s = true →
    ∃ t : State, exec .encode s = .next t ∧
      t = { s with mem := t.mem, idx := t.idx, err := .none, errIdx := 0, errInfo := 0, phase := .idle, done := true } ∧
      (∀ i, i < pixelCount s →
        t.mem.readPixel (s.lockBase.toNat + 4 * i) =
          encPixel (s.mem.readPixel (s.coverBase.toNat + 4 * i))
            (if i < s.len.toNat then s.mem.read (s.payloadBase.toNat + i) else 0)) ∧
      ∀ a, (lockBuffer s).holds a = false → t.mem.read a = s.mem.read a

/-- R91, R94: after an ENCODE without error no colour channel differs from its cover by more than 7, alpha is unchanged,
the change in a lane below LEN is that digit of the payload byte exactly, and the pixels from LEN on are copies. -/
def Obligations.EncodeChangesEachLaneByItsDigit : Prop :=
  ∀ s t : State, exec .encode s = .next t → t.err = .none → ∀ i, i < pixelCount s →
    let k := s.mem.readPixel (s.coverBase.toNat + 4 * i)
    let l := t.mem.readPixel (s.lockBase.toNat + 4 * i)
    absdiff8 l.r k.r ≤ 7 ∧ absdiff8 l.g k.g ≤ 7 ∧ absdiff8 l.b k.b ≤ 7 ∧ l.a = k.a ∧
    (i < s.len.toNat → differences l.colour k.colour = digits (s.mem.read (s.payloadBase.toNat + i))) ∧
    (s.len.toNat ≤ i → l = k)

/-- R93: encoding in place gives the pixels that encoding to any other legal lock buffer gives. -/
def Obligations.EncodeInPlaceEqualsDisjoint : Prop :=
  ∀ (s t u : State) (b : Word), s.lockBase = s.coverBase →
    exec .encode s = .next t → t.err = .none →
    exec .encode { s with lockBase := b } = .next u → u.err = .none →
    ∀ i, i < pixelCount s →
      t.mem.readPixel (s.coverBase.toNat + 4 * i) = u.mem.readPixel (b.toNat + 4 * i)

/-- R92: the lock image is a function of the cover, the length and the payload (and of no more than the payload padded
with zeros), and for a fixed cover and length distinct payloads give distinct lock images. -/
def Obligations.EncodeIsDeterministicAndInjective : Prop :=
  ∀ s₁ s₂ t₁ t₂ : State, exec .encode s₁ = .next t₁ → t₁.err = .none → exec .encode s₂ = .next t₂ → t₂.err = .none →
    s₁.imgDim = s₂.imgDim →
    (∀ i, i < pixelCount s₁ →
      s₁.mem.readPixel (s₁.coverBase.toNat + 4 * i) = s₂.mem.readPixel (s₂.coverBase.toNat + 4 * i)) →
    ((∀ i, i < pixelCount s₁ → payloadByte s₁ i = payloadByte s₂ i) →
      ∀ i, i < pixelCount s₁ →
        t₁.mem.readPixel (s₁.lockBase.toNat + 4 * i) = t₂.mem.readPixel (s₂.lockBase.toNat + 4 * i)) ∧
    (s₁.len = s₂.len → (∃ i, i < s₁.len.toNat ∧
        s₁.mem.read (s₁.payloadBase.toNat + i) ≠ s₂.mem.read (s₂.payloadBase.toNat + i)) →
      ∃ i, i < pixelCount s₁ ∧
        t₁.mem.readPixel (s₁.lockBase.toNat + 4 * i) ≠ t₂.mem.readPixel (s₂.lockBase.toNat + 4 * i))

/-- R54: a frame command that passes its checks is refused exactly if a lock byte is a payload byte, or a lock byte is a
cover byte and the encoding is not in place (ENCODE); if an out byte is a lock or a key byte (DECODE). That the checks
come before is the model's reading (log 10). -/
def Obligations.OverlapIsRefused : Prop :=
  (∀ s : State, s.len.toNat ≤ pixelCount s → encodeInRange s = true →
    (exec .encode s = .refused .bufferOverlap ↔
      ∃ a, (lockBuffer s).holds a = true ∧
        ((payloadBuffer s).holds a = true ∨ ((coverBuffer s).holds a = true ∧ s.lockBase ≠ s.coverBase)))) ∧
  ∀ s : State, s.imgDim = s.keyDim → decodeInRange s = true →
    (exec .decode s = .refused .bufferOverlap ↔
      ∃ a, (outBuffer s).holds a = true ∧ ((lockBuffer s).holds a = true ∨ (keyBuffer s).holds a = true))

/-! ### DECODE -/

/-- R133: DECODE with dimensions that differ in width or in height raises DIMENSION_MISMATCH, whatever the pixels and the
bases, with OUT_LEN = 0 and no memory access. -/
def Obligations.DecodeChecksDimensionsFirst : Prop :=
  ErrCode.dimensionMismatch.code = 2 ∧
  ∀ s : State, s.imgDim.extractLsb' 0 16 ≠ s.keyDim.extractLsb' 0 16 ∨
      s.imgDim.extractLsb' 16 16 ≠ s.keyDim.extractLsb' 16 16 →
    exec .decode s =
      .next { s with
        outLen := 0, err := .dimensionMismatch, errIdx := 0, errInfo := 0, phase := .idle, done := true }

/-- R105, R106, R112: DECODE that passes its checks and whose every pixel i decodes to a byte f i completes with NONE;
the out range holds these N bytes, OUT_LEN is one past the last that is not 0 (0 if there is none), the out bytes from
OUT_LEN on are 0, and every byte outside the out range is left alone. -/
def Obligations.DecodeRecoversTheFrame : Prop :=
  ∀ (s : State) (f : Nat → Byte), decodeReady s = true →
    (∀ i, i < pixelCount s →
      decPixel (s.mem.readPixel (s.lockBase.toNat + 4 * i)) (s.mem.readPixel (s.keyBase.toNat + 4 * i)) = .ok (f i)) →
    ∃ t : State, exec .decode s = .next t ∧
      t = { s with
        mem := t.mem, idx := t.idx, lnz := t.lnz, outLen := t.outLen
        err := .none, errIdx := 0, errInfo := 0, phase := .idle, done := true } ∧
      (∀ i, i < pixelCount s → t.mem.read (s.outBase.toNat + i) = f i) ∧
      t.outLen.toNat ≤ pixelCount s ∧
      (∀ i, t.outLen.toNat ≤ i → i < pixelCount s → f i = 0) ∧
      (t.outLen ≠ 0 → f (t.outLen.toNat - 1) ≠ 0) ∧
      ∀ a, (outBuffer s).holds a = false → t.mem.read a = s.mem.read a

/-- R107: DECODE that passes its checks and meets malformed pixels completes with MALFORMED_PAYLOAD, the lowest such
index in ERR_IDX, its differences in ERR_INFO and OUT_LEN = 0; bytes outside the out range are unchanged. Of the bytes in
the out range nothing is said. -/
def Obligations.DecodeAbortsAtTheLowestMalformedPixel : Prop :=
  ErrCode.malformedPayload.code = 3 ∧
  ∀ (s : State) (i : Nat) (d : Triple), decodeReady s = true → i < pixelCount s →
    decPixel (s.mem.readPixel (s.lockBase.toNat + 4 * i)) (s.mem.readPixel (s.keyBase.toNat + 4 * i)) = .malformed d →
    (∀ j, j < i → ∀ e, decPixel (s.mem.readPixel (s.lockBase.toNat + 4 * j))
      (s.mem.readPixel (s.keyBase.toNat + 4 * j)) ≠ .malformed e) →
    ∃ t : State, exec .decode s = .next t ∧
      t = { s with
        mem := t.mem, idx := t.idx, lnz := t.lnz, draws := t.draws, outLen := 0, err := .malformedPayload
        errIdx := BitVec.ofNat 32 i
        errInfo := BitVec.ofNat 32 (d.r + 256 * d.g + 65536 * d.b)
        phase := .idle, done := true } ∧
      t.errIdx.toNat = i ∧
      ∀ a, (outBuffer s).holds a = false → t.mem.read a = s.mem.read a

/-- R99, R104: DECODE does not read alpha. Two states that differ only in memory, and there not in the colour bytes of
the lock and the key, report the same; without an error they recover the same bytes. -/
def Obligations.DecodeIgnoresAlpha : Prop :=
  ∀ (s t u : State) (m : Memory),
    (∀ i k, i < pixelCount s → k < 3 →
      s.mem.read (s.lockBase.toNat + 4 * i + k) = m.read (s.lockBase.toNat + 4 * i + k) ∧
      s.mem.read (s.keyBase.toNat + 4 * i + k) = m.read (s.keyBase.toNat + 4 * i + k)) →
    exec .decode s = .next t → exec .decode { s with mem := m } = .next u →
    t.err = u.err ∧ t.errIdx = u.errIdx ∧ t.errInfo = u.errInfo ∧ t.outLen = u.outLen ∧
    (t.err = .none → ∀ i, i < pixelCount s →
      t.mem.read (s.outBase.toNat + i) = u.mem.read (s.outBase.toNat + i))

/-- R108: a payload whose last byte is not 0, or that is empty, comes back whole. -/
def Obligations.RoundTripRecoversThePayload : Prop :=
  ∀ s t u : State, RoundTripSetup s t u →
    (s.len.toNat = 0 ∨ s.mem.read (s.payloadBase.toNat + (s.len.toNat - 1)) ≠ 0) →
    ∃ v : State, exec .decode u = .next v ∧ v.err = .none ∧ v.outLen = s.len ∧
      ∀ i, i < s.len.toNat → v.mem.read (u.outBase.toNat + i) = s.mem.read (s.payloadBase.toNat + i)

/-- R109: any payload comes back without its trailing zeros, and an all-zero one as the empty one. -/
def Obligations.RoundTripLosesTrailingZeros : Prop :=
  ∀ s t u : State, RoundTripSetup s t u →
    ∃ v : State, exec .decode u = .next v ∧ v.err = .none ∧ v.outLen.toNat ≤ s.len.toNat ∧
      (∀ i, i < v.outLen.toNat → v.mem.read (u.outBase.toNat + i) = s.mem.read (s.payloadBase.toNat + i)) ∧
      (∀ i, v.outLen.toNat ≤ i → i < s.len.toNat → s.mem.read (s.payloadBase.toNat + i) = 0) ∧
      (v.outLen ≠ 0 → s.mem.read (s.payloadBase.toNat + (v.outLen.toNat - 1)) ≠ 0) ∧
      ((∀ i, i < s.len.toNat → s.mem.read (s.payloadBase.toNat + i) = 0) → v.outLen = 0)

/-! ### Every command -/

/-- R22, R32, R33, R34, R38, R115: what a completion may write. Every command leaves every operand and control register, the
latch, the memory size and the host's side alone; RES is written by the pixel commands only, OUT_LEN by DECODE only, the
memory by the frame commands only; ERR_IDX and ERR_INFO are 0 for every code but MALFORMED_PAYLOAD. -/
def Obligations.CompletionWritesOnlyItsResults : Prop :=
  ∀ (i : Instr) (s t : State), exec i s = .next t →
    t = { s with
      res := t.res, outLen := t.outLen, mem := t.mem, err := t.err, errIdx := t.errIdx, errInfo := t.errInfo
      idx := t.idx, lnz := t.lnz, draws := t.draws, phase := .idle, done := true } ∧
    (i ≠ .digits → i ≠ .encpx → i ≠ .decpx → t.res = s.res) ∧
    (i = .decpx → t.err ≠ .none → t.res = s.res) ∧
    (i ≠ .decode → t.outLen = s.outLen) ∧
    (i = .decode → t.err ≠ .none → t.outLen = 0) ∧
    (i ≠ .encode → i ≠ .decode → t.mem = s.mem) ∧
    (t.err ≠ .malformedPayload → t.errIdx = 0 ∧ t.errInfo = 0) ∧
    (i = .decpx → t.errIdx = 0)

/-- R131: the codes, and which command raises which. -/
def Obligations.ErrorCodesAndTheirCommands : Prop :=
  ErrCode.none.code = 0 ∧ ErrCode.capacityExceeded.code = 1 ∧ ErrCode.dimensionMismatch.code = 2 ∧
  ErrCode.malformedPayload.code = 3 ∧ ErrCode.rangeFault.code = 4 ∧ ErrCode.illegalCommand.code = 5 ∧
  (∀ e : ErrCode, e.code ≠ 6 ∧ e.code ≠ 7) ∧
  ∀ (i : Instr) (s t : State), exec i s = .next t →
    (t.err = .capacityExceeded → i = .encode) ∧
    (t.err = .dimensionMismatch → i = .decode) ∧
    (t.err = .malformedPayload → i = .decpx ∨ i = .decode) ∧
    (t.err = .rangeFault → i = .encode ∨ i = .decode) ∧
    (t.err = .illegalCommand ↔ ∃ w, i = .illegal w)

/-- R139: an error ends the command with the completion step, changes no mask, and is precise. The four errors found before any access, and MALFORMED_PAYLOAD from DECPX, leave the
memory exactly as it was; MALFORMED_PAYLOAD from DECODE leaves everything outside the out range as it was. -/
def Obligations.ErrorsArePrecise : Prop :=
  ∀ (i : Instr) (s t : State), exec i s = .next t →
    t.phase = .idle ∧ t.done = true ∧ t.ie = s.ie ∧
    (t.err ≠ .none → i = .decode → t.outLen = 0) ∧
    (t.err = .capacityExceeded ∨ t.err = .dimensionMismatch ∨ t.err = .rangeFault ∨ t.err = .illegalCommand →
      t.mem = s.mem) ∧
    (t.err = .malformedPayload → i = .decpx → t.mem = s.mem) ∧
    (t.err = .malformedPayload → i = .decode →
      ∀ a, (outBuffer s).holds a = false → t.mem.read a = s.mem.read a)

/-- R140: retrying a command that failed, with the operands and the memory it left, gives the same error. -/
def Obligations.RetryGivesTheSameError : Prop :=
  ∀ (i : Instr) (s t : State) (w : Word), exec i s = .next t → t.err ≠ .none →
    ∃ u : State, exec i (accept w t) = .next u ∧ u.err = t.err ∧ u.errIdx = t.errIdx ∧ u.errInfo = t.errInfo

/-! ### Steps -/

/-- R113: each step is exactly one of a host operation, the completion step, a reset (or nothing, where the schedule
gives the turn to an agent that has nothing to do: the schedule is the model's, log 6). -/
def Obligations.EachStepIsOneAction : Prop :=
  ∀ s : State, step s =
    match nextAction s with
    | .host op => hostOp op (turnTaken s)
    | .completion => exec (running s) (turnTaken s)
    | .reset => resetBlock (turnTaken s)
    | .nothing => .next (turnTaken s)

/-- R115: while BUSY the completion step, where its turn is laid down, runs the latched word's command. That it is the
default turn too, where none is laid down, is the model's choice (log 6), and so is that a command placed by
`withFetchWord` is the one the next step runs (log 15). -/
def Obligations.StepRunsTheLatchedCommand : Prop :=
  (∀ (s : State) (i : Instr) (rest : List Turn), s.phase = .busy → decode s.latch = i → s.sched = .engine :: rest →
    step s = exec i { s with sched := rest }) ∧
  (∀ (s : State) (i : Instr), s.phase = .busy → decode s.latch = i → s.sched = [] → step s = exec i s) ∧
  ∀ (s : State) (w : Word), step (s.withFetchWord 32 w.toNat) = exec (decode w) (accept w s)

/-- R114: a CMD write while idle is accepted, and changes nothing else. -/
def Obligations.CmdWriteWhileIdleIsAccepted : Prop :=
  ∀ (s : State) (w : Word), s.phase = .idle →
    hostOp (.wr .word 0x00C w) s =
      .next { s with latch := w, phase := .busy, done := false, err := .none }

/-- R116: a CMD write while busy is discarded, sets OVR and changes nothing else. -/
def Obligations.CmdWriteWhileBusyIsDiscarded : Prop :=
  ∀ (s : State) (w : Word), s.phase = .busy →
    hostOp (.wr .word 0x00C w) s = .next { s with ovr := true }

/-- R117: a write to a busy-gated register stores the value while idle (BYTE_IN keeps [7:0]); while busy it stores
nothing, sets OVR and changes nothing else. -/
def Obligations.BusyGatedWrites : Prop :=
  (∀ (s : State) (v : Word), s.phase = .idle →
    hostOp (.wr .word 0x010 v) s = .next { s with imgDim := v } ∧
    hostOp (.wr .word 0x014 v) s = .next { s with keyDim := v } ∧
    hostOp (.wr .word 0x01C v) s = .next { s with len := v } ∧
    hostOp (.wr .word 0x020 v) s = .next { s with coverBase := v } ∧
    hostOp (.wr .word 0x024 v) s = .next { s with payloadBase := v } ∧
    hostOp (.wr .word 0x028 v) s = .next { s with lockBase := v } ∧
    hostOp (.wr .word 0x02C v) s = .next { s with keyBase := v } ∧
    hostOp (.wr .word 0x030 v) s = .next { s with outBase := v } ∧
    hostOp (.wr .word 0x040 v) s = .next { s with pixA := v } ∧
    hostOp (.wr .word 0x044 v) s = .next { s with pixB := v } ∧
    hostOp (.wr .word 0x048 v) s = .next { s with byteIn := v.extractLsb' 0 8 }) ∧
  ∀ (s : State) (off v : Word), s.phase = .busy →
    off ∈ [0x010, 0x014, 0x01C, 0x020, 0x024, 0x028, 0x02C, 0x030, 0x040, 0x044, 0x048] →
    hostOp (.wr .word off v) s = .next { s with ovr := true }

/-- R118: a write to a read-only register or to a reserved slot changes no state, in either phase. -/
def Obligations.WritesWithoutEffect : Prop :=
  ∀ (s : State) (off v : Word),
    off ∈ [0x000, 0x018, 0x034, 0x038, 0x03C, 0x04C] ∨ (0x050 ≤ off.toNat ∧ off.toNat ≤ 0x0FC ∧ off.toNat % 4 = 0) →
    hostOp (.wr .word off v) s = .next s

/-- R119: a STATUS write clears DONE where bit 1 is 1 and OVR where bit 2 is 1, in either phase, and ignores the rest;
clearing DONE deasserts IRQ. -/
def Obligations.StatusWriteClears : Prop :=
  ∀ (s : State) (v : Word),
    hostOp (.wr .word 0x008 v) s =
      .next { s with
        done := if v.getLsbD 1 = true then false else s.done
        ovr := if v.getLsbD 2 = true then false else s.ovr } ∧
    ∀ t : State, hostOp (.wr .word 0x008 v) s = .next t → v.getLsbD 1 = true → t.irq = false

/-- R120: a CTRL write with bit 1 set is the soft reset and leaves IE = 0; any other stores bit 0 in IE; in either phase,
the other bits ignored. -/
def Obligations.CtrlWriteSetsIeOrResets : Prop :=
  ∀ (s : State) (v : Word),
    (v.getLsbD 1 = false → hostOp (.wr .word 0x004 v) s = .next { s with ie := v.getLsbD 0 }) ∧
    (v.getLsbD 1 = true → hostOp (.wr .word 0x004 v) s = resetBlock s ∧
      ∀ t : State, hostOp (.wr .word 0x004 v) s = .next t → t.ie = false)

/-- R16, R17, R113: what a host read of each slot returns; a read changes nothing (but the value the host now has, which
is the model's own field, log 16). -/
def Obligations.HostReadsReturnTheRegister : Prop :=
  (∀ s : State,
    windowRead 0x000 s = 0x53540001 ∧ windowRead 0x00C s = 0 ∧ windowRead 0x010 s = s.imgDim ∧
    windowRead 0x014 s = s.keyDim ∧ windowRead 0x01C s = s.len ∧ windowRead 0x020 s = s.coverBase ∧
    windowRead 0x024 s = s.payloadBase ∧ windowRead 0x028 s = s.lockBase ∧ windowRead 0x02C s = s.keyBase ∧
    windowRead 0x030 s = s.outBase ∧ windowRead 0x034 s = s.outLen ∧ windowRead 0x038 s = s.errIdx ∧
    windowRead 0x03C s = s.errInfo ∧ windowRead 0x040 s = s.pixA ∧ windowRead 0x044 s = s.pixB ∧
    windowRead 0x048 s = 0#24 ++ s.byteIn ∧ windowRead 0x04C s = s.res) ∧
  (∀ (s : State) (off : Word), 0x050 ≤ off.toNat → off.toNat ≤ 0x0FC → off.toNat % 4 = 0 → windowRead off s = 0) ∧
  ∀ (s : State) (off : Word), off.toNat < 0x100 → off.toNat % 4 = 0 →
    hostOp (.rd .word off) s = .next { s with lastRead := windowRead off s }

/-- R19, R20: the fields of STATUS and CTRL as read, the reserved bits and SRST reading 0. -/
def Obligations.StatusAndCtrlLayout : Prop :=
  ∀ s : State,
    (windowRead 0x008 s).getLsbD 0 = decide (s.phase = .busy) ∧
    (windowRead 0x008 s).getLsbD 1 = s.done ∧
    (windowRead 0x008 s).getLsbD 2 = s.ovr ∧
    (windowRead 0x008 s).getLsbD 3 = false ∧
    (windowRead 0x008 s).extractLsb' 4 3 = s.err.code ∧
    (windowRead 0x008 s).extractLsb' 7 25 = 0 ∧
    (windowRead 0x004 s).getLsbD 0 = s.ie ∧
    (windowRead 0x004 s).extractLsb' 1 31 = 0

/-- R128: every register access that is not an aligned 32-bit access of the window is refused. -/
def Obligations.UnsupportedAccessIsRefused : Prop :=
  ∀ (s : State) (width : Width) (off v : Word),
    width ≠ .word ∨ off.toNat % 4 ≠ 0 ∨ 0x100 ≤ off.toNat →
    hostOp (.rd width off) s = .refused (.unsupportedAccess width off) ∧
    hostOp (.wr width off v) s = .refused (.unsupportedAccess width off)

/-- R159: while a frame command runs, a host write of a byte of its input or output ranges, and a host read of a byte of
its output range, is refused. -/
def Obligations.HostRaceIsRefused : Prop :=
  (∀ (s : State) (a : Word) (v : Byte), s.phase = .busy → s.latch = 0x00000010 → a.toNat < s.memBytes →
    ((coverBuffer s).holds a.toNat = true ∨ (payloadBuffer s).holds a.toNat = true ∨
        (lockBuffer s).holds a.toNat = true →
      hostOp (.mwr a v) s = .refused (.hostRace a)) ∧
    ((lockBuffer s).holds a.toNat = true → hostOp (.mrd a) s = .refused (.hostRace a))) ∧
  ∀ (s : State) (a : Word) (v : Byte), s.phase = .busy → s.latch = 0x00000011 → a.toNat < s.memBytes →
    ((lockBuffer s).holds a.toNat = true ∨ (keyBuffer s).holds a.toNat = true ∨
        (outBuffer s).holds a.toNat = true →
      hostOp (.mwr a v) s = .refused (.hostRace a)) ∧
    ((outBuffer s).holds a.toNat = true → hostOp (.mrd a) s = .refused (.hostRace a))

/-- R46, R56, R74: the host reads and writes any byte the memory has, freely while idle and outside the running command's
ranges while busy; a write changes that byte alone. That a write is complete at the memory at its own step, and that the
value read is kept in `lastRead`, are the model's choices (log 17, log 16). -/
def Obligations.HostMemoryAccess : Prop :=
  (∀ (s : State) (a : Word), a.toNat < s.memBytes →
    (s.phase = .idle ∨ ∀ x ∈ writeBuffers s, x.holds a.toNat = false) →
    hostOp (.mrd a) s = .next { s with lastRead := (s.mem.read a.toNat).setWidth 32 }) ∧
  ∀ (s : State) (a : Word) (v : Byte), a.toNat < s.memBytes →
    (s.phase = .idle ∨ ∀ x ∈ readBuffers s ++ writeBuffers s, x.holds a.toNat = false) →
    ∃ t : State, hostOp (.mwr a v) s = .next t ∧ t = { s with mem := t.mem } ∧
      ∀ b, t.mem.read b = if b = a.toNat then v else s.mem.read b

/-- R75: `wait` reads STATUS and goes on while BUSY is 1. That it is one poll at a step, with `wait` put back at the front
of the script, and that the value read is kept in `lastRead`, are the model's choices (log 16). -/
def Obligations.WaitPollsStatus : Prop :=
  ∀ s : State,
    (s.phase = .busy →
      hostOp .wait s = .next { s with lastRead := windowRead 0x008 s, script := .wait :: s.script }) ∧
    (s.phase = .idle → hostOp .wait s = .next { s with lastRead := windowRead 0x008 s })

/-- R142, R143: IRQ is IE and DONE at every instant; a completion with any code sets DONE and so raises IRQ while IE = 1;
DONE falls by a STATUS write of 1 to bit 1, by an acceptance and by a reset; IE = 0 masks it and keeps it pending, and
setting IE while it is pending asserts IRQ at once. -/
def Obligations.InterruptFollowsDone : Prop :=
  (∀ s : State, s.irq = (s.ie && s.done)) ∧
  (∀ (i : Instr) (s t : State), exec i s = .next t → t.done = true ∧ (s.ie = true → t.irq = true)) ∧
  (∀ (s t : State) (v : Word), v.getLsbD 1 = true → hostOp (.wr .word 0x008 v) s = .next t →
    t.done = false ∧ t.irq = false) ∧
  (∀ (s t : State) (w : Word), s.phase = .idle → hostOp (.wr .word 0x00C w) s = .next t →
    t.done = false ∧ t.irq = false) ∧
  (∀ s t : State, resetBlock s = .next t → t.done = false ∧ t.irq = false) ∧
  (∀ s t : State, s.done = true → hostOp (.wr .word 0x004 0x00000001) s = .next t → t.irq = true) ∧
  ∀ s t : State, hostOp (.wr .word 0x004 0x00000000) s = .next t → t.irq = false ∧ t.done = s.done

/-! ### Reset -/

/-- R16, R44: what reset leaves, register by register as the host reads it. -/
def Obligations.ResetValues : Prop :=
  windowRead 0x000 State.reset = 0x53540001 ∧
  (∀ off : Word, off ∈ [0x004, 0x008, 0x00C, 0x010, 0x014, 0x018, 0x01C, 0x020, 0x024, 0x028, 0x02C, 0x030, 0x034, 0x038,
    0x03C, 0x040, 0x044, 0x048, 0x04C] → windowRead off State.reset = 0) ∧
  State.reset.phase = .idle ∧ State.reset.irq = false

/-- R152, R153: after a reset, by the reset line or by CTRL.SRST, every piece of block state holds its reset value, in
whatever phase the block was; the running command is abandoned. (The reset line is a turn of the
model's schedule, log 6. A command that breaks R54 has no abandonment in the
model: log 11.) -/
def Obligations.ResetFromAnyState : Prop :=
  ∀ s : State, s.phase = .idle ∨ latchedBreach s = false →
    (∀ v : Word, v.getLsbD 1 = true → hostOp (.wr .word 0x004 v) s = resetBlock s) ∧
    (∀ rest, s.sched = .reset :: rest → step s = resetBlock { s with sched := rest }) ∧
    ∃ t : State, resetBlock s = .next t ∧
      t = { s with
        ie := false, phase := .idle, done := false, ovr := false, err := .none
        imgDim := 0, keyDim := 0, len := 0, coverBase := 0, payloadBase := 0, lockBase := 0, keyBase := 0, outBase := 0
        outLen := 0, errIdx := 0, errInfo := 0, pixA := 0, pixB := 0, byteIn := 0, res := 0
        latch := t.latch, idx := t.idx, lnz := t.lnz, mem := t.mem, draws := t.draws } ∧
      windowRead 0x000 t = 0x53540001 ∧ windowRead 0x018 t = 0 ∧ t.irq = false

/-- R154: a reset never writes the memory itself; of a frame command it abandons, the write range alone is unspecified:
every other byte is unchanged, and the engine is idle. -/
def Obligations.ResetKeepsMemoryOutsideTheWriteRange : Prop :=
  ∀ s t : State, resetBlock s = .next t →
    t.phase = .idle ∧
    (s.phase = .idle → t.mem = s.mem) ∧
    (s.phase = .busy → running s ≠ .encode → running s ≠ .decode → t.mem = s.mem) ∧
    (s.phase = .busy → running s = .encode →
      ∀ a, (lockBuffer s).holds a = false → t.mem.read a = s.mem.read a) ∧
    (s.phase = .busy → running s = .decode →
      ∀ a, (outBuffer s).holds a = false → t.mem.read a = s.mem.read a)

/-- R155: commands accepted straight after a reset, hardware or soft (both are `resetBlock`), use the reset operand
values; none touches the memory, whatever it holds and whatever its size is. -/
def Obligations.CommandsRunStraightAfterReset : Prop :=
  ∀ s t : State, resetBlock s = .next t →
    (∃ u, exec .encode (accept 0x00000010 t) = .next u ∧ u.err = .none ∧ u.mem = t.mem) ∧
    (∃ u, exec .decode (accept 0x00000011 t) = .next u ∧ u.err = .none ∧ u.outLen = 0 ∧ u.mem = t.mem) ∧
    (∃ u, exec .digits (accept 0x00000001 t) = .next u ∧ u.err = .none ∧ u.res = 0 ∧ u.mem = t.mem) ∧
    (∃ u, exec .encpx (accept 0x00000002 t) = .next u ∧ u.err = .none ∧ u.res = 0 ∧ u.mem = t.mem) ∧
    ∃ u, exec .decpx (accept 0x00000003 t) = .next u ∧ u.err = .none ∧ u.res = 0 ∧ u.mem = t.mem

/-! ### Rules about the whole machine -/

/-- The invariant holds after reset, whatever MEM_BYTES is. -/
def Obligations.InvariantHoldsAfterReset : Prop :=
  State.reset.Inv ∧ ∀ memTop : Word, (State.powerUp memTop).Inv

/-- The invariant is kept by every step: the memory stays canonical and inside MEM_BYTES; while BUSY, DONE = 0 and
ERR = NONE; when idle, ERR_IDX and ERR_INFO are 0 unless the code is MALFORMED_PAYLOAD, and then the recorded
differences are those of no byte; ERR_INFO[31:24] stays 0; OUT_LEN stays at most the size of the largest frame (R32,
R33, R34, R46, R97, R130). The canonical form of the memory is the model's own (log 2). -/
def Obligations.EveryStepKeepsTheInvariant : Prop :=
  ∀ s t : State, s.Inv → step s = .next t → t.Inv

/-- R114, R115, R116, R153: BUSY rises only by a CMD write while idle, and falls only by the completion step or a
reset. -/
def Obligations.BusyRisesAndFallsOnlyByCommands : Prop :=
  ∀ s t : State, step s = .next t →
    (s.phase = .idle → t.phase = .busy →
      ∃ w : Word, nextAction s = .host (.wr .word 0x00C w) ∧ t.latch = w) ∧
    (s.phase = .busy → t.phase = .idle → nextAction s = .completion ∨ nextResets s)

/-- R20, R143: DONE rises only by the completion step, and falls only by a STATUS write of 1 to bit 1, an acceptance or a
reset. -/
def Obligations.DoneRisesOnlyByCompletion : Prop :=
  ∀ s t : State, step s = .next t →
    (s.done = false → t.done = true → nextAction s = .completion) ∧
    (s.done = true → t.done = false →
      nextSetsBit .status 1 s ∨ nextResets s ∨
      (s.phase = .idle ∧ ∃ w : Word, nextAction s = .host (.wr .word 0x00C w)))

/-- R20, R137: OVR rises only by a register write that arrives while BUSY, and falls only by a STATUS write of 1 to bit 2
or a reset. -/
def Obligations.OverrunIsSticky : Prop :=
  ∀ s t : State, step s = .next t →
    (s.ovr = false → t.ovr = true →
      s.phase = .busy ∧ ∃ off v : Word, nextAction s = .host (.wr .word off v) ∧
        off ∈ [0x00C, 0x010, 0x014, 0x01C, 0x020, 0x024, 0x028, 0x02C, 0x030, 0x040, 0x044, 0x048]) ∧
    (s.ovr = true → t.ovr = false → nextSetsBit .status 2 s ∨ nextResets s)

/-- R45, R56, R154: a byte of the memory changes only by a host write of that byte, by the completion of a frame command
in its write range, or by a reset that abandons a frame command in its write range. -/
def Obligations.MemoryChangesOnlyByItsWriters : Prop :=
  ∀ (s t : State) (a : Nat), step s = .next t → t.mem.read a ≠ s.mem.read a →
    (∃ (w : Word) (v : Byte), nextAction s = .host (.mwr w v) ∧ w.toNat = a) ∨
    ((nextAction s = .completion ∨ nextResets s) ∧ s.phase = .busy ∧
      ((running s = .encode ∧ (lockBuffer s).holds a = true) ∨
       (running s = .decode ∧ (outBuffer s).holds a = true)))

/-- R127, R130: from acceptance to completion the operand registers, the latch and the result registers keep their
values, and the size of the memory never changes (R8). -/
def Obligations.OperandsAndResultsStayWhileBusy : Prop :=
  ∀ s t : State, step s = .next t →
    t.memTop = s.memTop ∧
    (s.phase = .busy → t.phase = .busy →
      t = { s with
        ie := t.ie, done := t.done, ovr := t.ovr, mem := t.mem, script := t.script, lastRead := t.lastRead
        sched := t.sched } ∧
      (s.done = false → t.done = false))

/-- R125, over the model's finite schedule with its default turn (log 6, DESIGN CHOICE). While BUSY and as long as no
reset comes, the completion step of the running command is reached, at the latest when the turns laid down are used up,
unless the host first breaks a duty with an operation of its own, which stops the run. With resets allowed, a run that
is not stopped has gone idle at some step no later than one past the turns laid down. -/
def Obligations.CompletionIsEventuallyTaken : Prop :=
  ∀ s : State, s.phase = .busy →
    ((∀ (k : Nat) (t : State), k ≤ s.sched.length → Sys2Proof.core.run k s = .next t → t.phase = .busy →
        ¬nextResets t) →
      ∃ (k : Nat) (t : State), k ≤ s.sched.length ∧ Sys2Proof.core.run k s = .next t ∧ t.phase = .busy ∧
        running t = running s ∧
        ((nextAction t = .completion ∧ step t = exec (running s) (turnTaken t)) ∨
          ∃ op, nextAction t = .host op ∧ ¬StepSafe t)) ∧
    ∃ k, 0 < k ∧ k ≤ s.sched.length + 1 ∧
      ∀ t : State, Sys2Proof.core.run k s = .next t → t.phase = .idle
end

