-- ==== Sys2Proof/Laws/State.lean ====
section
/-! SUPPORT. One lemma per field per update of State, each true by rfl, so that no proof unfolds a record update. -/

namespace Sys2Proof.Machine

/-! ### accept -/

@[simp] theorem accept_ie (w : Word) (s : State) : (accept w s).ie = s.ie := rfl
@[simp] theorem accept_phase (w : Word) (s : State) : (accept w s).phase = .busy := rfl
@[simp] theorem accept_done (w : Word) (s : State) : (accept w s).done = false := rfl
@[simp] theorem accept_ovr (w : Word) (s : State) : (accept w s).ovr = s.ovr := rfl
@[simp] theorem accept_err (w : Word) (s : State) : (accept w s).err = .none := rfl
@[simp] theorem accept_imgDim (w : Word) (s : State) : (accept w s).imgDim = s.imgDim := rfl
@[simp] theorem accept_keyDim (w : Word) (s : State) : (accept w s).keyDim = s.keyDim := rfl
@[simp] theorem accept_len (w : Word) (s : State) : (accept w s).len = s.len := rfl
@[simp] theorem accept_coverBase (w : Word) (s : State) : (accept w s).coverBase = s.coverBase := rfl
@[simp] theorem accept_payloadBase (w : Word) (s : State) : (accept w s).payloadBase = s.payloadBase := rfl
@[simp] theorem accept_lockBase (w : Word) (s : State) : (accept w s).lockBase = s.lockBase := rfl
@[simp] theorem accept_keyBase (w : Word) (s : State) : (accept w s).keyBase = s.keyBase := rfl
@[simp] theorem accept_outBase (w : Word) (s : State) : (accept w s).outBase = s.outBase := rfl
@[simp] theorem accept_outLen (w : Word) (s : State) : (accept w s).outLen = s.outLen := rfl
@[simp] theorem accept_errIdx (w : Word) (s : State) : (accept w s).errIdx = s.errIdx := rfl
@[simp] theorem accept_errInfo (w : Word) (s : State) : (accept w s).errInfo = s.errInfo := rfl
@[simp] theorem accept_pixA (w : Word) (s : State) : (accept w s).pixA = s.pixA := rfl
@[simp] theorem accept_pixB (w : Word) (s : State) : (accept w s).pixB = s.pixB := rfl
@[simp] theorem accept_byteIn (w : Word) (s : State) : (accept w s).byteIn = s.byteIn := rfl
@[simp] theorem accept_res (w : Word) (s : State) : (accept w s).res = s.res := rfl
@[simp] theorem accept_latch (w : Word) (s : State) : (accept w s).latch = w := rfl
@[simp] theorem accept_idx (w : Word) (s : State) : (accept w s).idx = s.idx := rfl
@[simp] theorem accept_lnz (w : Word) (s : State) : (accept w s).lnz = s.lnz := rfl
@[simp] theorem accept_mem (w : Word) (s : State) : (accept w s).mem = s.mem := rfl
@[simp] theorem accept_memTop (w : Word) (s : State) : (accept w s).memTop = s.memTop := rfl
@[simp] theorem accept_script (w : Word) (s : State) : (accept w s).script = s.script := rfl
@[simp] theorem accept_lastRead (w : Word) (s : State) : (accept w s).lastRead = s.lastRead := rfl
@[simp] theorem accept_sched (w : Word) (s : State) : (accept w s).sched = s.sched := rfl
@[simp] theorem accept_draws (w : Word) (s : State) : (accept w s).draws = s.draws := rfl

/-! ### finish -/

@[simp] theorem finish_ie (e : ErrCode) (i f : Word) (s : State) : (finish e i f s).ie = s.ie := rfl
@[simp] theorem finish_phase (e : ErrCode) (i f : Word) (s : State) : (finish e i f s).phase = .idle := rfl
@[simp] theorem finish_done (e : ErrCode) (i f : Word) (s : State) : (finish e i f s).done = true := rfl
@[simp] theorem finish_ovr (e : ErrCode) (i f : Word) (s : State) : (finish e i f s).ovr = s.ovr := rfl
@[simp] theorem finish_err (e : ErrCode) (i f : Word) (s : State) : (finish e i f s).err = e := rfl
@[simp] theorem finish_imgDim (e : ErrCode) (i f : Word) (s : State) : (finish e i f s).imgDim = s.imgDim := rfl
@[simp] theorem finish_keyDim (e : ErrCode) (i f : Word) (s : State) : (finish e i f s).keyDim = s.keyDim := rfl
@[simp] theorem finish_len (e : ErrCode) (i f : Word) (s : State) : (finish e i f s).len = s.len := rfl
@[simp] theorem finish_coverBase (e : ErrCode) (i f : Word) (s : State) :
    (finish e i f s).coverBase = s.coverBase := rfl
@[simp] theorem finish_payloadBase (e : ErrCode) (i f : Word) (s : State) :
    (finish e i f s).payloadBase = s.payloadBase := rfl
@[simp] theorem finish_lockBase (e : ErrCode) (i f : Word) (s : State) : (finish e i f s).lockBase = s.lockBase := rfl
@[simp] theorem finish_keyBase (e : ErrCode) (i f : Word) (s : State) : (finish e i f s).keyBase = s.keyBase := rfl
@[simp] theorem finish_outBase (e : ErrCode) (i f : Word) (s : State) : (finish e i f s).outBase = s.outBase := rfl
@[simp] theorem finish_outLen (e : ErrCode) (i f : Word) (s : State) : (finish e i f s).outLen = s.outLen := rfl
@[simp] theorem finish_errIdx (e : ErrCode) (i f : Word) (s : State) : (finish e i f s).errIdx = i := rfl
@[simp] theorem finish_errInfo (e : ErrCode) (i f : Word) (s : State) : (finish e i f s).errInfo = f := rfl
@[simp] theorem finish_pixA (e : ErrCode) (i f : Word) (s : State) : (finish e i f s).pixA = s.pixA := rfl
@[simp] theorem finish_pixB (e : ErrCode) (i f : Word) (s : State) : (finish e i f s).pixB = s.pixB := rfl
@[simp] theorem finish_byteIn (e : ErrCode) (i f : Word) (s : State) : (finish e i f s).byteIn = s.byteIn := rfl
@[simp] theorem finish_res (e : ErrCode) (i f : Word) (s : State) : (finish e i f s).res = s.res := rfl
@[simp] theorem finish_latch (e : ErrCode) (i f : Word) (s : State) : (finish e i f s).latch = s.latch := rfl
@[simp] theorem finish_idx (e : ErrCode) (i f : Word) (s : State) : (finish e i f s).idx = s.idx := rfl
@[simp] theorem finish_lnz (e : ErrCode) (i f : Word) (s : State) : (finish e i f s).lnz = s.lnz := rfl
@[simp] theorem finish_mem (e : ErrCode) (i f : Word) (s : State) : (finish e i f s).mem = s.mem := rfl
@[simp] theorem finish_memTop (e : ErrCode) (i f : Word) (s : State) : (finish e i f s).memTop = s.memTop := rfl
@[simp] theorem finish_script (e : ErrCode) (i f : Word) (s : State) : (finish e i f s).script = s.script := rfl
@[simp] theorem finish_lastRead (e : ErrCode) (i f : Word) (s : State) : (finish e i f s).lastRead = s.lastRead := rfl
@[simp] theorem finish_sched (e : ErrCode) (i f : Word) (s : State) : (finish e i f s).sched = s.sched := rfl
@[simp] theorem finish_draws (e : ErrCode) (i f : Word) (s : State) : (finish e i f s).draws = s.draws := rfl

/-! ### overrun -/

@[simp] theorem overrun_ie (s : State) : (overrun s).ie = s.ie := rfl
@[simp] theorem overrun_phase (s : State) : (overrun s).phase = s.phase := rfl
@[simp] theorem overrun_done (s : State) : (overrun s).done = s.done := rfl
@[simp] theorem overrun_ovr (s : State) : (overrun s).ovr = true := rfl
@[simp] theorem overrun_err (s : State) : (overrun s).err = s.err := rfl
@[simp] theorem overrun_imgDim (s : State) : (overrun s).imgDim = s.imgDim := rfl
@[simp] theorem overrun_keyDim (s : State) : (overrun s).keyDim = s.keyDim := rfl
@[simp] theorem overrun_len (s : State) : (overrun s).len = s.len := rfl
@[simp] theorem overrun_coverBase (s : State) : (overrun s).coverBase = s.coverBase := rfl
@[simp] theorem overrun_payloadBase (s : State) : (overrun s).payloadBase = s.payloadBase := rfl
@[simp] theorem overrun_lockBase (s : State) : (overrun s).lockBase = s.lockBase := rfl
@[simp] theorem overrun_keyBase (s : State) : (overrun s).keyBase = s.keyBase := rfl
@[simp] theorem overrun_outBase (s : State) : (overrun s).outBase = s.outBase := rfl
@[simp] theorem overrun_outLen (s : State) : (overrun s).outLen = s.outLen := rfl
@[simp] theorem overrun_errIdx (s : State) : (overrun s).errIdx = s.errIdx := rfl
@[simp] theorem overrun_errInfo (s : State) : (overrun s).errInfo = s.errInfo := rfl
@[simp] theorem overrun_pixA (s : State) : (overrun s).pixA = s.pixA := rfl
@[simp] theorem overrun_pixB (s : State) : (overrun s).pixB = s.pixB := rfl
@[simp] theorem overrun_byteIn (s : State) : (overrun s).byteIn = s.byteIn := rfl
@[simp] theorem overrun_res (s : State) : (overrun s).res = s.res := rfl
@[simp] theorem overrun_latch (s : State) : (overrun s).latch = s.latch := rfl
@[simp] theorem overrun_idx (s : State) : (overrun s).idx = s.idx := rfl
@[simp] theorem overrun_lnz (s : State) : (overrun s).lnz = s.lnz := rfl
@[simp] theorem overrun_mem (s : State) : (overrun s).mem = s.mem := rfl
@[simp] theorem overrun_memTop (s : State) : (overrun s).memTop = s.memTop := rfl
@[simp] theorem overrun_script (s : State) : (overrun s).script = s.script := rfl
@[simp] theorem overrun_lastRead (s : State) : (overrun s).lastRead = s.lastRead := rfl
@[simp] theorem overrun_sched (s : State) : (overrun s).sched = s.sched := rfl
@[simp] theorem overrun_draws (s : State) : (overrun s).draws = s.draws := rfl

/-! ### clearStatus -/

@[simp] theorem clearStatus_ie (v : Word) (s : State) : (clearStatus v s).ie = s.ie := rfl
@[simp] theorem clearStatus_phase (v : Word) (s : State) : (clearStatus v s).phase = s.phase := rfl
@[simp] theorem clearStatus_done (v : Word) (s : State) : (clearStatus v s).done = (s.done && !v.getLsbD 1) := rfl
@[simp] theorem clearStatus_ovr (v : Word) (s : State) : (clearStatus v s).ovr = (s.ovr && !v.getLsbD 2) := rfl
@[simp] theorem clearStatus_err (v : Word) (s : State) : (clearStatus v s).err = s.err := rfl
@[simp] theorem clearStatus_imgDim (v : Word) (s : State) : (clearStatus v s).imgDim = s.imgDim := rfl
@[simp] theorem clearStatus_keyDim (v : Word) (s : State) : (clearStatus v s).keyDim = s.keyDim := rfl
@[simp] theorem clearStatus_len (v : Word) (s : State) : (clearStatus v s).len = s.len := rfl
@[simp] theorem clearStatus_coverBase (v : Word) (s : State) : (clearStatus v s).coverBase = s.coverBase := rfl
@[simp] theorem clearStatus_payloadBase (v : Word) (s : State) : (clearStatus v s).payloadBase = s.payloadBase := rfl
@[simp] theorem clearStatus_lockBase (v : Word) (s : State) : (clearStatus v s).lockBase = s.lockBase := rfl
@[simp] theorem clearStatus_keyBase (v : Word) (s : State) : (clearStatus v s).keyBase = s.keyBase := rfl
@[simp] theorem clearStatus_outBase (v : Word) (s : State) : (clearStatus v s).outBase = s.outBase := rfl
@[simp] theorem clearStatus_outLen (v : Word) (s : State) : (clearStatus v s).outLen = s.outLen := rfl
@[simp] theorem clearStatus_errIdx (v : Word) (s : State) : (clearStatus v s).errIdx = s.errIdx := rfl
@[simp] theorem clearStatus_errInfo (v : Word) (s : State) : (clearStatus v s).errInfo = s.errInfo := rfl
@[simp] theorem clearStatus_pixA (v : Word) (s : State) : (clearStatus v s).pixA = s.pixA := rfl
@[simp] theorem clearStatus_pixB (v : Word) (s : State) : (clearStatus v s).pixB = s.pixB := rfl
@[simp] theorem clearStatus_byteIn (v : Word) (s : State) : (clearStatus v s).byteIn = s.byteIn := rfl
@[simp] theorem clearStatus_res (v : Word) (s : State) : (clearStatus v s).res = s.res := rfl
@[simp] theorem clearStatus_latch (v : Word) (s : State) : (clearStatus v s).latch = s.latch := rfl
@[simp] theorem clearStatus_idx (v : Word) (s : State) : (clearStatus v s).idx = s.idx := rfl
@[simp] theorem clearStatus_lnz (v : Word) (s : State) : (clearStatus v s).lnz = s.lnz := rfl
@[simp] theorem clearStatus_mem (v : Word) (s : State) : (clearStatus v s).mem = s.mem := rfl
@[simp] theorem clearStatus_memTop (v : Word) (s : State) : (clearStatus v s).memTop = s.memTop := rfl
@[simp] theorem clearStatus_script (v : Word) (s : State) : (clearStatus v s).script = s.script := rfl
@[simp] theorem clearStatus_lastRead (v : Word) (s : State) : (clearStatus v s).lastRead = s.lastRead := rfl
@[simp] theorem clearStatus_sched (v : Word) (s : State) : (clearStatus v s).sched = s.sched := rfl
@[simp] theorem clearStatus_draws (v : Word) (s : State) : (clearStatus v s).draws = s.draws := rfl

/-! ### freeBuffer -/

@[simp] theorem freeBuffer_ie (x : Buffer) (s : State) : (freeBuffer x s).ie = s.ie := rfl
@[simp] theorem freeBuffer_phase (x : Buffer) (s : State) : (freeBuffer x s).phase = s.phase := rfl
@[simp] theorem freeBuffer_done (x : Buffer) (s : State) : (freeBuffer x s).done = s.done := rfl
@[simp] theorem freeBuffer_ovr (x : Buffer) (s : State) : (freeBuffer x s).ovr = s.ovr := rfl
@[simp] theorem freeBuffer_err (x : Buffer) (s : State) : (freeBuffer x s).err = s.err := rfl
@[simp] theorem freeBuffer_imgDim (x : Buffer) (s : State) : (freeBuffer x s).imgDim = s.imgDim := rfl
@[simp] theorem freeBuffer_keyDim (x : Buffer) (s : State) : (freeBuffer x s).keyDim = s.keyDim := rfl
@[simp] theorem freeBuffer_len (x : Buffer) (s : State) : (freeBuffer x s).len = s.len := rfl
@[simp] theorem freeBuffer_coverBase (x : Buffer) (s : State) : (freeBuffer x s).coverBase = s.coverBase := rfl
@[simp] theorem freeBuffer_payloadBase (x : Buffer) (s : State) : (freeBuffer x s).payloadBase = s.payloadBase := rfl
@[simp] theorem freeBuffer_lockBase (x : Buffer) (s : State) : (freeBuffer x s).lockBase = s.lockBase := rfl
@[simp] theorem freeBuffer_keyBase (x : Buffer) (s : State) : (freeBuffer x s).keyBase = s.keyBase := rfl
@[simp] theorem freeBuffer_outBase (x : Buffer) (s : State) : (freeBuffer x s).outBase = s.outBase := rfl
@[simp] theorem freeBuffer_outLen (x : Buffer) (s : State) : (freeBuffer x s).outLen = s.outLen := rfl
@[simp] theorem freeBuffer_errIdx (x : Buffer) (s : State) : (freeBuffer x s).errIdx = s.errIdx := rfl
@[simp] theorem freeBuffer_errInfo (x : Buffer) (s : State) : (freeBuffer x s).errInfo = s.errInfo := rfl
@[simp] theorem freeBuffer_pixA (x : Buffer) (s : State) : (freeBuffer x s).pixA = s.pixA := rfl
@[simp] theorem freeBuffer_pixB (x : Buffer) (s : State) : (freeBuffer x s).pixB = s.pixB := rfl
@[simp] theorem freeBuffer_byteIn (x : Buffer) (s : State) : (freeBuffer x s).byteIn = s.byteIn := rfl
@[simp] theorem freeBuffer_res (x : Buffer) (s : State) : (freeBuffer x s).res = s.res := rfl
@[simp] theorem freeBuffer_latch (x : Buffer) (s : State) : (freeBuffer x s).latch = s.latch := rfl
@[simp] theorem freeBuffer_idx (x : Buffer) (s : State) : (freeBuffer x s).idx = s.idx := rfl
@[simp] theorem freeBuffer_lnz (x : Buffer) (s : State) : (freeBuffer x s).lnz = s.lnz := rfl
@[simp] theorem freeBuffer_mem (x : Buffer) (s : State) :
    (freeBuffer x s).mem = s.mem.free s.draws (x.addresses s.memBytes) := rfl
@[simp] theorem freeBuffer_memTop (x : Buffer) (s : State) : (freeBuffer x s).memTop = s.memTop := rfl
@[simp] theorem freeBuffer_script (x : Buffer) (s : State) : (freeBuffer x s).script = s.script := rfl
@[simp] theorem freeBuffer_lastRead (x : Buffer) (s : State) : (freeBuffer x s).lastRead = s.lastRead := rfl
@[simp] theorem freeBuffer_sched (x : Buffer) (s : State) : (freeBuffer x s).sched = s.sched := rfl
@[simp] theorem freeBuffer_draws (x : Buffer) (s : State) : (freeBuffer x s).draws = s.draws + 1 := rfl

/-! ### encodeAt -/

@[simp] theorem encodeAt_ie (s : State) (i : Nat) : (encodeAt s i).ie = s.ie := rfl
@[simp] theorem encodeAt_phase (s : State) (i : Nat) : (encodeAt s i).phase = s.phase := rfl
@[simp] theorem encodeAt_done (s : State) (i : Nat) : (encodeAt s i).done = s.done := rfl
@[simp] theorem encodeAt_ovr (s : State) (i : Nat) : (encodeAt s i).ovr = s.ovr := rfl
@[simp] theorem encodeAt_err (s : State) (i : Nat) : (encodeAt s i).err = s.err := rfl
@[simp] theorem encodeAt_imgDim (s : State) (i : Nat) : (encodeAt s i).imgDim = s.imgDim := rfl
@[simp] theorem encodeAt_keyDim (s : State) (i : Nat) : (encodeAt s i).keyDim = s.keyDim := rfl
@[simp] theorem encodeAt_len (s : State) (i : Nat) : (encodeAt s i).len = s.len := rfl
@[simp] theorem encodeAt_coverBase (s : State) (i : Nat) : (encodeAt s i).coverBase = s.coverBase := rfl
@[simp] theorem encodeAt_payloadBase (s : State) (i : Nat) : (encodeAt s i).payloadBase = s.payloadBase := rfl
@[simp] theorem encodeAt_lockBase (s : State) (i : Nat) : (encodeAt s i).lockBase = s.lockBase := rfl
@[simp] theorem encodeAt_keyBase (s : State) (i : Nat) : (encodeAt s i).keyBase = s.keyBase := rfl
@[simp] theorem encodeAt_outBase (s : State) (i : Nat) : (encodeAt s i).outBase = s.outBase := rfl
@[simp] theorem encodeAt_outLen (s : State) (i : Nat) : (encodeAt s i).outLen = s.outLen := rfl
@[simp] theorem encodeAt_errIdx (s : State) (i : Nat) : (encodeAt s i).errIdx = s.errIdx := rfl
@[simp] theorem encodeAt_errInfo (s : State) (i : Nat) : (encodeAt s i).errInfo = s.errInfo := rfl
@[simp] theorem encodeAt_pixA (s : State) (i : Nat) : (encodeAt s i).pixA = s.pixA := rfl
@[simp] theorem encodeAt_pixB (s : State) (i : Nat) : (encodeAt s i).pixB = s.pixB := rfl
@[simp] theorem encodeAt_byteIn (s : State) (i : Nat) : (encodeAt s i).byteIn = s.byteIn := rfl
@[simp] theorem encodeAt_res (s : State) (i : Nat) : (encodeAt s i).res = s.res := rfl
@[simp] theorem encodeAt_latch (s : State) (i : Nat) : (encodeAt s i).latch = s.latch := rfl
@[simp] theorem encodeAt_idx (s : State) (i : Nat) : (encodeAt s i).idx = BitVec.ofNat 32 i := rfl
@[simp] theorem encodeAt_lnz (s : State) (i : Nat) : (encodeAt s i).lnz = s.lnz := rfl
@[simp] theorem encodeAt_mem (s : State) (i : Nat) :
    (encodeAt s i).mem = s.mem.writePixel (s.lockBase.toNat + 4 * i)
    (encPixel (s.mem.readPixel (s.coverBase.toNat + 4 * i)) (payloadByte s i)) := rfl
@[simp] theorem encodeAt_memTop (s : State) (i : Nat) : (encodeAt s i).memTop = s.memTop := rfl
@[simp] theorem encodeAt_script (s : State) (i : Nat) : (encodeAt s i).script = s.script := rfl
@[simp] theorem encodeAt_lastRead (s : State) (i : Nat) : (encodeAt s i).lastRead = s.lastRead := rfl
@[simp] theorem encodeAt_sched (s : State) (i : Nat) : (encodeAt s i).sched = s.sched := rfl
@[simp] theorem encodeAt_draws (s : State) (i : Nat) : (encodeAt s i).draws = s.draws := rfl

/-! ### visit -/

@[simp] theorem visit_ie (i : Nat) (s : State) : (visit i s).ie = s.ie := rfl
@[simp] theorem visit_phase (i : Nat) (s : State) : (visit i s).phase = s.phase := rfl
@[simp] theorem visit_done (i : Nat) (s : State) : (visit i s).done = s.done := rfl
@[simp] theorem visit_ovr (i : Nat) (s : State) : (visit i s).ovr = s.ovr := rfl
@[simp] theorem visit_err (i : Nat) (s : State) : (visit i s).err = s.err := rfl
@[simp] theorem visit_imgDim (i : Nat) (s : State) : (visit i s).imgDim = s.imgDim := rfl
@[simp] theorem visit_keyDim (i : Nat) (s : State) : (visit i s).keyDim = s.keyDim := rfl
@[simp] theorem visit_len (i : Nat) (s : State) : (visit i s).len = s.len := rfl
@[simp] theorem visit_coverBase (i : Nat) (s : State) : (visit i s).coverBase = s.coverBase := rfl
@[simp] theorem visit_payloadBase (i : Nat) (s : State) : (visit i s).payloadBase = s.payloadBase := rfl
@[simp] theorem visit_lockBase (i : Nat) (s : State) : (visit i s).lockBase = s.lockBase := rfl
@[simp] theorem visit_keyBase (i : Nat) (s : State) : (visit i s).keyBase = s.keyBase := rfl
@[simp] theorem visit_outBase (i : Nat) (s : State) : (visit i s).outBase = s.outBase := rfl
@[simp] theorem visit_outLen (i : Nat) (s : State) : (visit i s).outLen = s.outLen := rfl
@[simp] theorem visit_errIdx (i : Nat) (s : State) : (visit i s).errIdx = s.errIdx := rfl
@[simp] theorem visit_errInfo (i : Nat) (s : State) : (visit i s).errInfo = s.errInfo := rfl
@[simp] theorem visit_pixA (i : Nat) (s : State) : (visit i s).pixA = s.pixA := rfl
@[simp] theorem visit_pixB (i : Nat) (s : State) : (visit i s).pixB = s.pixB := rfl
@[simp] theorem visit_byteIn (i : Nat) (s : State) : (visit i s).byteIn = s.byteIn := rfl
@[simp] theorem visit_res (i : Nat) (s : State) : (visit i s).res = s.res := rfl
@[simp] theorem visit_latch (i : Nat) (s : State) : (visit i s).latch = s.latch := rfl
@[simp] theorem visit_idx (i : Nat) (s : State) : (visit i s).idx = BitVec.ofNat 32 i := rfl
@[simp] theorem visit_lnz (i : Nat) (s : State) : (visit i s).lnz = s.lnz := rfl
@[simp] theorem visit_mem (i : Nat) (s : State) : (visit i s).mem = s.mem := rfl
@[simp] theorem visit_memTop (i : Nat) (s : State) : (visit i s).memTop = s.memTop := rfl
@[simp] theorem visit_script (i : Nat) (s : State) : (visit i s).script = s.script := rfl
@[simp] theorem visit_lastRead (i : Nat) (s : State) : (visit i s).lastRead = s.lastRead := rfl
@[simp] theorem visit_sched (i : Nat) (s : State) : (visit i s).sched = s.sched := rfl
@[simp] theorem visit_draws (i : Nat) (s : State) : (visit i s).draws = s.draws := rfl

/-! ### recover -/

@[simp] theorem recover_ie (i : Nat) (v : Byte) (s : State) : (recover i v s).ie = s.ie := rfl
@[simp] theorem recover_phase (i : Nat) (v : Byte) (s : State) : (recover i v s).phase = s.phase := rfl
@[simp] theorem recover_done (i : Nat) (v : Byte) (s : State) : (recover i v s).done = s.done := rfl
@[simp] theorem recover_ovr (i : Nat) (v : Byte) (s : State) : (recover i v s).ovr = s.ovr := rfl
@[simp] theorem recover_err (i : Nat) (v : Byte) (s : State) : (recover i v s).err = s.err := rfl
@[simp] theorem recover_imgDim (i : Nat) (v : Byte) (s : State) : (recover i v s).imgDim = s.imgDim := rfl
@[simp] theorem recover_keyDim (i : Nat) (v : Byte) (s : State) : (recover i v s).keyDim = s.keyDim := rfl
@[simp] theorem recover_len (i : Nat) (v : Byte) (s : State) : (recover i v s).len = s.len := rfl
@[simp] theorem recover_coverBase (i : Nat) (v : Byte) (s : State) : (recover i v s).coverBase = s.coverBase := rfl
@[simp] theorem recover_payloadBase (i : Nat) (v : Byte) (s : State) :
    (recover i v s).payloadBase = s.payloadBase := rfl
@[simp] theorem recover_lockBase (i : Nat) (v : Byte) (s : State) : (recover i v s).lockBase = s.lockBase := rfl
@[simp] theorem recover_keyBase (i : Nat) (v : Byte) (s : State) : (recover i v s).keyBase = s.keyBase := rfl
@[simp] theorem recover_outBase (i : Nat) (v : Byte) (s : State) : (recover i v s).outBase = s.outBase := rfl
@[simp] theorem recover_outLen (i : Nat) (v : Byte) (s : State) : (recover i v s).outLen = s.outLen := rfl
@[simp] theorem recover_errIdx (i : Nat) (v : Byte) (s : State) : (recover i v s).errIdx = s.errIdx := rfl
@[simp] theorem recover_errInfo (i : Nat) (v : Byte) (s : State) : (recover i v s).errInfo = s.errInfo := rfl
@[simp] theorem recover_pixA (i : Nat) (v : Byte) (s : State) : (recover i v s).pixA = s.pixA := rfl
@[simp] theorem recover_pixB (i : Nat) (v : Byte) (s : State) : (recover i v s).pixB = s.pixB := rfl
@[simp] theorem recover_byteIn (i : Nat) (v : Byte) (s : State) : (recover i v s).byteIn = s.byteIn := rfl
@[simp] theorem recover_res (i : Nat) (v : Byte) (s : State) : (recover i v s).res = s.res := rfl
@[simp] theorem recover_latch (i : Nat) (v : Byte) (s : State) : (recover i v s).latch = s.latch := rfl
@[simp] theorem recover_idx (i : Nat) (v : Byte) (s : State) : (recover i v s).idx = s.idx := rfl
@[simp] theorem recover_lnz (i : Nat) (v : Byte) (s : State) :
    (recover i v s).lnz = if v ≠ 0 then BitVec.ofNat 32 (i + 1) else s.lnz := rfl
@[simp] theorem recover_mem (i : Nat) (v : Byte) (s : State) :
    (recover i v s).mem = s.mem.write (s.outBase.toNat + i) v := rfl
@[simp] theorem recover_memTop (i : Nat) (v : Byte) (s : State) : (recover i v s).memTop = s.memTop := rfl
@[simp] theorem recover_script (i : Nat) (v : Byte) (s : State) : (recover i v s).script = s.script := rfl
@[simp] theorem recover_lastRead (i : Nat) (v : Byte) (s : State) : (recover i v s).lastRead = s.lastRead := rfl
@[simp] theorem recover_sched (i : Nat) (v : Byte) (s : State) : (recover i v s).sched = s.sched := rfl
@[simp] theorem recover_draws (i : Nat) (v : Byte) (s : State) : (recover i v s).draws = s.draws := rfl

/-! ### blockReset -/

@[simp] theorem blockReset_ie (s : State) : (blockReset s).ie = false := rfl
@[simp] theorem blockReset_phase (s : State) : (blockReset s).phase = .idle := rfl
@[simp] theorem blockReset_done (s : State) : (blockReset s).done = false := rfl
@[simp] theorem blockReset_ovr (s : State) : (blockReset s).ovr = false := rfl
@[simp] theorem blockReset_err (s : State) : (blockReset s).err = .none := rfl
@[simp] theorem blockReset_imgDim (s : State) : (blockReset s).imgDim = 0 := rfl
@[simp] theorem blockReset_keyDim (s : State) : (blockReset s).keyDim = 0 := rfl
@[simp] theorem blockReset_len (s : State) : (blockReset s).len = 0 := rfl
@[simp] theorem blockReset_coverBase (s : State) : (blockReset s).coverBase = 0 := rfl
@[simp] theorem blockReset_payloadBase (s : State) : (blockReset s).payloadBase = 0 := rfl
@[simp] theorem blockReset_lockBase (s : State) : (blockReset s).lockBase = 0 := rfl
@[simp] theorem blockReset_keyBase (s : State) : (blockReset s).keyBase = 0 := rfl
@[simp] theorem blockReset_outBase (s : State) : (blockReset s).outBase = 0 := rfl
@[simp] theorem blockReset_outLen (s : State) : (blockReset s).outLen = 0 := rfl
@[simp] theorem blockReset_errIdx (s : State) : (blockReset s).errIdx = 0 := rfl
@[simp] theorem blockReset_errInfo (s : State) : (blockReset s).errInfo = 0 := rfl
@[simp] theorem blockReset_pixA (s : State) : (blockReset s).pixA = 0 := rfl
@[simp] theorem blockReset_pixB (s : State) : (blockReset s).pixB = 0 := rfl
@[simp] theorem blockReset_byteIn (s : State) : (blockReset s).byteIn = 0 := rfl
@[simp] theorem blockReset_res (s : State) : (blockReset s).res = 0 := rfl
@[simp] theorem blockReset_latch (s : State) : (blockReset s).latch = 0 := rfl
@[simp] theorem blockReset_idx (s : State) : (blockReset s).idx = 0 := rfl
@[simp] theorem blockReset_lnz (s : State) : (blockReset s).lnz = 0 := rfl
@[simp] theorem blockReset_mem (s : State) : (blockReset s).mem = s.mem := rfl
@[simp] theorem blockReset_memTop (s : State) : (blockReset s).memTop = s.memTop := rfl
@[simp] theorem blockReset_script (s : State) : (blockReset s).script = s.script := rfl
@[simp] theorem blockReset_lastRead (s : State) : (blockReset s).lastRead = s.lastRead := rfl
@[simp] theorem blockReset_sched (s : State) : (blockReset s).sched = s.sched := rfl
@[simp] theorem blockReset_draws (s : State) : (blockReset s).draws = s.draws := rfl

/-! ### The ends of a command are `finish`, and what depends on one field -/

@[simp] theorem complete_eq (s : State) : complete s = finish .none 0 0 s := rfl

@[simp] theorem raise_eq (e : ErrCode) (s : State) : raise e s = finish e 0 0 s := rfl

@[simp] theorem raiseMalformed_eq (i : Nat) (d : Triple) (s : State) :
    raiseMalformed i d s = finish .malformedPayload (BitVec.ofNat 32 i) (packTriple d) s := rfl

theorem busy_eq_true {s : State} : s.busy = true ↔ s.phase = .busy := by simp [State.busy]

theorem busy_eq_false {s : State} : s.busy = false ↔ s.phase = .idle := by
  cases h : s.phase <;> simp [State.busy, h]

theorem phase_cases (s : State) : s.phase = .idle ∨ s.phase = .busy := by
  cases s.phase <;> simp

theorem gated_idle {s t : State} (h : s.phase = .idle) : gated s t = t := by
  simp [gated, busy_eq_false.2 h]

theorem gated_busy {s t : State} (h : s.phase = .busy) : gated s t = overrun s := by
  simp [gated, busy_eq_true.2 h]

end Sys2Proof.Machine
end

