-- ==== Sys2Proof/Laws/Memory.lean ====
section
/-! SUPPORT. The laws of the data memory: reading after writing, the canonical form, and that equal contents are equal
lists. -/

namespace Sys2Proof.Machine.Memory

/-! ### Reading after writing -/

theorem read_insert_same (a : Nat) (v : Byte) (m : Memory) (h : ∀ c ∈ m, c.1 ≠ a) :
    read (insert a v m) a = v := by
  induction m with
  | nil => simp [insert, read]
  | cons c m ih =>
    have hc : c.1 ≠ a := h c (by simp)
    have hm := ih fun e he => h e (by simp [he])
    by_cases hlt : a < c.1 <;> simp [insert, hlt, read, hc, hm]

theorem read_insert_other {a b : Nat} (v : Byte) (m : Memory) (h : a ≠ b) :
    read (insert a v m) b = read m b := by
  induction m with
  | nil => simp [insert, read, h]
  | cons c m ih =>
    by_cases hlt : a < c.1
    · simp [insert, hlt, read, h]
    · have hi : insert a v (c :: m) = c :: insert a v m := by simp [insert, hlt]
      rw [hi]
      by_cases hc : c.1 = b <;> simp [read, hc, ih]

theorem read_erase_same (m : Memory) (a : Nat) :
    read (m.filter fun c => c.1 != a) a = unlisted := by
  induction m with
  | nil => rfl
  | cons c m ih => by_cases hc : c.1 = a <;> simp [hc, read, ih]

theorem read_erase_other {a b : Nat} (m : Memory) (h : a ≠ b) :
    read (m.filter fun c => c.1 != a) b = read m b := by
  induction m with
  | nil => rfl
  | cons c m ih =>
    by_cases hc : c.1 = a
    · have : c.1 ≠ b := hc ▸ h
      simp [hc, read, ih, h]
    · by_cases hb : c.1 = b
      · simp [read, hb, Ne.symm h]
      · simp [hc, read, hb, ih]

/-- A byte reads as what was stored there last. -/
@[simp] theorem read_write_same (m : Memory) (a : Nat) (v : Byte) : (m.write a v).read a = v := by
  by_cases hv : v = unlisted
  · simp [write, hv, read_erase_same]
  · simp only [write, hv, if_false]
    exact read_insert_same a v _ fun c hc => by simpa using (List.mem_filter.1 hc).2

/-- A store leaves every other byte alone. -/
theorem read_write_other (m : Memory) {a b : Nat} (v : Byte) (h : a ≠ b) : (m.write a v).read b = m.read b := by
  by_cases hv : v = unlisted
  · simp [write, hv, read_erase_other m h]
  · simp [write, hv, read_insert_other v _ h, read_erase_other m h]

theorem read_write (m : Memory) (a b : Nat) (v : Byte) :
    (m.write a v).read b = if a = b then v else m.read b := by
  split
  · next h => simp [h]
  · next h => exact read_write_other m v h

/-! ### Pixels -/

/-- The pixel at an address reads as what was stored there last. -/
@[simp] theorem readPixel_writePixel_same (m : Memory) (a : Nat) (p : Pixel) :
    (m.writePixel a p).readPixel a = p := by
  simp [writePixel, readPixel, read_write]

/-- Storing a pixel leaves every byte outside its four alone. -/
theorem read_writePixel_other (m : Memory) {a b : Nat} (p : Pixel) (h : b < a ∨ a + 4 ≤ b) :
    (m.writePixel a p).read b = m.read b := by
  have h0 : a ≠ b := by omega
  have h1 : a + 1 ≠ b := by omega
  have h2 : a + 2 ≠ b := by omega
  have h3 : a + 3 ≠ b := by omega
  simp [writePixel, read_write, h0, h1, h2, h3]

theorem readPixel_congr {m n : Memory} {a : Nat} (h : ∀ k, k < 4 → m.read (a + k) = n.read (a + k)) :
    m.readPixel a = n.readPixel a := by
  have h0 := h 0 (by omega)
  have h1 := h 1 (by omega)
  have h2 := h 2 (by omega)
  have h3 := h 3 (by omega)
  simp_all [readPixel]

theorem readColour_congr {m n : Memory} {a : Nat} (h : ∀ k, k < 3 → m.read (a + k) = n.read (a + k)) :
    m.readColour a = n.readColour a := by
  have h0 := h 0 (by omega)
  have h1 := h 1 (by omega)
  have h2 := h 2 (by omega)
  simp_all [readColour]

@[simp] theorem readPixel_colour (m : Memory) (a : Nat) : (m.readPixel a).colour = m.readColour a := rfl

/-! ### Freeing bytes -/

/-- Freeing bytes leaves every other byte alone. -/
theorem read_free_other (m : Memory) (n : Nat) (as : List Nat) (b : Nat) (h : b ∉ as) :
    (m.free n as).read b = m.read b := by
  induction as generalizing m with
  | nil => rfl
  | cons a as ih =>
    have hab : a ≠ b := fun e => h (by simp [e])
    have hb : b ∉ as := fun e => h (by simp [e])
    change ((m.write a (Config.freeByte n a)).free n as).read b = _
    rw [ih _ hb, read_write_other _ _ hab]

/-! ### The canonical form -/

theorem mem_insert {a : Nat} {v : Byte} {m : Memory} {e : Host.Cell} :
    e ∈ insert a v m ↔ e = (a, v) ∨ e ∈ m := by
  induction m with
  | nil => simp [insert]
  | cons c m ih =>
    by_cases hlt : a < c.1
    · simp [insert, hlt]
    · simp only [insert, hlt, if_false, List.mem_cons, ih]
      tauto

theorem wf_cons {c : Host.Cell} {m : Memory} :
    wf (c :: m) = true ↔ c.2 ≠ unlisted ∧ (∀ e ∈ m, c.1 < e.1) ∧ wf m = true := by
  simp [wf, and_assoc]

theorem wf_filter {m : Memory} (f : Host.Cell → Bool) (h : wf m = true) : wf (m.filter f) = true := by
  induction m with
  | nil => rfl
  | cons c m ih =>
    obtain ⟨hc, hlt, hm⟩ := wf_cons.1 h
    by_cases hf : f c = true
    · rw [List.filter_cons_of_pos hf]
      exact wf_cons.2 ⟨hc, fun e he => hlt e (List.mem_filter.1 he).1, ih hm⟩
    · rw [List.filter_cons_of_neg hf]
      exact ih hm

theorem wf_insert {a : Nat} {v : Byte} {m : Memory} (hv : v ≠ unlisted) (ha : ∀ e ∈ m, e.1 ≠ a)
    (h : wf m = true) : wf (insert a v m) = true := by
  induction m with
  | nil => simp [insert, wf, hv]
  | cons c m ih =>
    obtain ⟨hc, hlt, hm⟩ := wf_cons.1 h
    by_cases hac : a < c.1
    · simp only [insert, hac, if_true]
      refine wf_cons.2 ⟨hv, fun e he => ?_, h⟩
      rcases List.mem_cons.1 he with rfl | he
      · exact hac
      · exact Nat.lt_trans hac (hlt e he)
    · simp only [insert, hac, if_false]
      refine wf_cons.2 ⟨hc, fun e he => ?_, ih (fun e he => ha e (by simp [he])) hm⟩
      rcases mem_insert.1 he with rfl | he
      · have := ha c (by simp)
        change c.1 < a
        omega
      · exact hlt e he

/-- A store keeps the canonical form. -/
theorem wf_write {m : Memory} (a : Nat) (v : Byte) (h : m.wf = true) : (m.write a v).wf = true := by
  by_cases hv : v = unlisted
  · simp [write, hv, wf_filter _ h]
  · simp only [write, hv, if_false]
    exact wf_insert hv (fun e he => by simpa using (List.mem_filter.1 he).2) (wf_filter _ h)

theorem wf_writePixel {m : Memory} (a : Nat) (p : Pixel) (h : m.wf = true) : (m.writePixel a p).wf = true :=
  wf_write _ _ (wf_write _ _ (wf_write _ _ (wf_write _ _ h)))

theorem wf_free {m : Memory} (n : Nat) (as : List Nat) (h : m.wf = true) : (m.free n as).wf = true := by
  induction as generalizing m with
  | nil => exact h
  | cons a as ih => exact ih (wf_write a _ h)

/-! ### Only bytes that exist are listed -/

theorem below_iff {m : Memory} {n : Nat} : m.below n = true ↔ ∀ e ∈ m, e.1 < n := by
  simp [below]

theorem below_write {m : Memory} {n a : Nat} (v : Byte) (ha : a < n) (h : m.below n = true) :
    (m.write a v).below n = true := by
  rw [below_iff] at h ⊢
  intro e he
  by_cases hv : v = unlisted
  · simp only [write, hv, if_true] at he
    exact h e (List.mem_filter.1 he).1
  · simp only [write, hv, if_false] at he
    rcases mem_insert.1 he with rfl | he
    · exact ha
    · exact h e (List.mem_filter.1 he).1

theorem below_writePixel {m : Memory} {n a : Nat} (p : Pixel) (ha : a + 3 < n) (h : m.below n = true) :
    (m.writePixel a p).below n = true :=
  below_write _ ha (below_write _ (by omega) (below_write _ (by omega) (below_write _ (by omega) h)))

theorem below_free {m : Memory} {n : Nat} (d : Nat) (as : List Nat) (ha : ∀ a ∈ as, a < n)
    (h : m.below n = true) : (m.free d as).below n = true := by
  induction as generalizing m with
  | nil => exact h
  | cons a as ih =>
    exact ih (fun b hb => ha b (by simp [hb])) (below_write _ (ha a (by simp)) h)

/-! ### Equal contents are equal lists -/

theorem read_of_all_above {m : Memory} {a : Nat} (h : ∀ e ∈ m, a < e.1) : m.read a = unlisted := by
  induction m with
  | nil => rfl
  | cons c m ih =>
    have hc : c.1 ≠ a := by have := h c (by simp); omega
    simp [read, hc, ih fun e he => h e (by simp [he])]

/-- Two memories in canonical form with the same byte at every address are the same list. -/
theorem eq_of_read_eq {m n : Memory} (hm : m.wf = true) (hn : n.wf = true) (h : ∀ a, m.read a = n.read a) :
    m = n := by
  induction m generalizing n with
  | nil =>
    cases n with
    | nil => rfl
    | cons c n =>
      have := h c.1
      simp [read, (wf_cons.1 hn).1.symm] at this
  | cons c m ih =>
    obtain ⟨hc, hlt, hm'⟩ := wf_cons.1 hm
    cases n with
    | nil =>
      have := h c.1
      simp [read, hc] at this
    | cons d n =>
      obtain ⟨hd, hlt', hn'⟩ := wf_cons.1 hn
      have key : c.1 = d.1 := by
        rcases Nat.lt_trichotomy c.1 d.1 with hcd | hcd | hcd
        · have hr : read (d :: n) c.1 = unlisted := read_of_all_above fun e he => by
            rcases List.mem_cons.1 he with rfl | he
            · exact hcd
            · exact Nat.lt_trans hcd (hlt' e he)
          have := h c.1
          rw [hr] at this
          simp [read, hc] at this
        · exact hcd
        · have hr : read (c :: m) d.1 = unlisted := read_of_all_above fun e he => by
            rcases List.mem_cons.1 he with rfl | he
            · exact hcd
            · exact Nat.lt_trans hcd (hlt e he)
          have := h d.1
          rw [hr] at this
          simp [read, hd.symm] at this
      have val : c.2 = d.2 := by simpa [read, key] using h c.1
      have hcd : c = d := Prod.ext key val
      subst hcd
      congr 1
      refine ih hm' hn' fun a => ?_
      by_cases ha : c.1 = a
      · subst ha
        rw [read_of_all_above hlt, read_of_all_above hlt']
      · simpa [read, ha] using h a

end Sys2Proof.Machine.Memory
end

