-- ==== Sys2Proof/Laws/Operands.lean ====
section
/-! SUPPORT. What the pure functions of Operands.lean do: bounds, inverses, the lanes of packed words, buffers. -/

namespace Sys2Proof.Machine

/-! ### Digits and the add-or-subtract rule -/

theorem digits_r_le (v : Byte) : (digits v).r ≤ 3 := by
  have := v.isLt
  simp only [digits]
  omega

theorem digits_g_le (v : Byte) : (digits v).g ≤ 7 := by
  simp only [digits]
  omega

theorem digits_b_le (v : Byte) : (digits v).b ≤ 7 := by
  simp only [digits]
  omega

theorem digits_value (v : Byte) : 64 * (digits v).r + 8 * (digits v).g + (digits v).b = v.toNat := by
  simp only [digits]
  omega

@[simp] theorem digits_zero : digits 0#8 = ⟨0, 0, 0⟩ := rfl

theorem choose_le {c d : Nat} (hc : c ≤ 255) (hd : d ≤ 7) : choose c d ≤ 255 := by
  unfold choose
  split <;> omega

@[simp] theorem choose_zero (c : Nat) : choose c 0 = c := rfl

theorem chooseByte_toNat (c : Byte) {d : Nat} (hd : d ≤ 7) : (chooseByte c d).toNat = choose c.toNat d := by
  have := choose_le (Nat.le_of_lt_succ c.isLt) hd
  simp only [chooseByte, BitVec.toNat_ofNat]
  exact Nat.mod_eq_of_lt (by omega)

@[simp] theorem chooseByte_zero (c : Byte) : chooseByte c 0 = c := by simp [chooseByte]

/-- The change the rule makes is the digit, whichever way it went. -/
theorem absdiff8_chooseByte (c : Byte) {d : Nat} (hd : d ≤ 7) : absdiff8 (chooseByte c d) c = d := by
  rw [absdiff8, chooseByte_toNat c hd, choose]
  split <;> omega

@[simp] theorem encPixel_zero (p : Pixel) : encPixel p 0#8 = p := by simp [encPixel]

/-! ### Differences -/

theorem absdiff8_le (a b : Byte) : absdiff8 a b ≤ 255 := by
  have := a.isLt
  have := b.isLt
  simp only [absdiff8]
  omega

theorem absdiff8_comm (a b : Byte) : absdiff8 a b = absdiff8 b a := by
  simp only [absdiff8]
  omega

theorem absdiff8_eq_zero {a b : Byte} : absdiff8 a b = 0 ↔ a = b := by
  simp only [absdiff8]
  constructor
  · intro h
    exact BitVec.eq_of_toNat_eq (by omega)
  · rintro rfl
    omega

/-! ### The octal reassembly -/

/-- The triple is the digit triple of some byte: the combined condition of R97. -/
theorem assemble_of_encodable {d : Triple} (hr : d.r ≤ 3) (hg : d.g ≤ 7) (hb : d.b ≤ 7) :
    assemble d = some (BitVec.ofNat 8 (64 * d.r + 8 * d.g + d.b)) := by
  have h1 : ¬(d.r > 7 ∨ d.g > 7 ∨ d.b > 7) := by omega
  have h2 : ¬(64 * d.r + 8 * d.g + d.b > 255) := by omega
  simp only [assemble, h1, h2, if_false]

theorem assemble_eq_none {d : Triple} : assemble d = none ↔ d.r > 3 ∨ d.g > 7 ∨ d.b > 7 := by
  unfold assemble
  split
  · simp only [true_iff]
    omega
  · split <;> simp <;> omega

/-- Decoding succeeds or reports the differences, and which of the two depends on the differences alone. -/
theorem decColour_cases (l k : Colour) :
    (∃ v, decColour l k = .ok v ∧ assemble (differences l k) = some v) ∨
    (decColour l k = .malformed (differences l k) ∧ assemble (differences l k) = none) := by
  unfold decColour
  cases h : assemble (differences l k) with
  | none => exact .inr ⟨rfl, rfl⟩
  | some v => exact .inl ⟨v, rfl, rfl⟩

theorem decColour_malformed {l k : Colour} {d : Triple} (h : decColour l k = .malformed d) :
    d = differences l k ∧ (d.r > 3 ∨ d.g > 7 ∨ d.b > 7) := by
  rcases decColour_cases l k with ⟨v, hv, -⟩ | ⟨hm, hn⟩
  · simp [hv] at h
  · rw [hm, Decoded.malformed.injEq] at h
    exact ⟨h.symm, h ▸ assemble_eq_none.1 hn⟩

/-! ### Lanes -/

theorem lane_toNat (w : Word) (k : Nat) : (lane w k).toNat = w.toNat / 2 ^ (8 * k) % 256 := by
  simp [lane, Nat.shiftRight_eq_div_pow]

theorem packTriple_toNat {t : Triple} (hr : t.r ≤ 255) (hg : t.g ≤ 255) (hb : t.b ≤ 255) :
    (packTriple t).toNat = t.r + 256 * t.g + 65536 * t.b := by
  have h1 : t.b % 256 = t.b := Nat.mod_eq_of_lt (by omega)
  have h2 : t.g % 256 = t.g := Nat.mod_eq_of_lt (by omega)
  have h3 : t.r % 256 = t.r := Nat.mod_eq_of_lt (by omega)
  simp only [packTriple, BitVec.toNat_append, BitVec.toNat_ofNat, Nat.reducePow, h1, h2, h3]
  rw [← Nat.shiftLeft_add_eq_or_of_lt (by omega), ← Nat.shiftLeft_add_eq_or_of_lt (by omega),
    ← Nat.shiftLeft_add_eq_or_of_lt (by omega)]
  simp only [Nat.shiftLeft_eq]
  omega

theorem packPixel_toNat (p : Pixel) :
    (packPixel p).toNat = p.r.toNat + 256 * p.g.toNat + 65536 * p.b.toNat + 16777216 * p.a.toNat := by
  have := p.r.isLt
  have := p.g.isLt
  have := p.b.isLt
  simp only [packPixel, BitVec.toNat_append]
  rw [← Nat.shiftLeft_add_eq_or_of_lt (by omega), ← Nat.shiftLeft_add_eq_or_of_lt (by omega),
    ← Nat.shiftLeft_add_eq_or_of_lt (by omega)]
  simp only [Nat.shiftLeft_eq]
  omega

@[simp] theorem unpackPixel_packPixel (p : Pixel) : unpackPixel (packPixel p) = p := by
  have := p.r.isLt
  have := p.g.isLt
  have := p.b.isLt
  have := p.a.isLt
  cases p with
  | mk r g b a =>
    simp only [unpackPixel, Pixel.mk.injEq]
    refine ⟨?_, ?_, ?_, ?_⟩ <;>
    · apply BitVec.eq_of_toNat_eq
      rw [lane_toNat, packPixel_toNat]
      simp_all
      omega

@[simp] theorem packPixel_unpackPixel (w : Word) : packPixel (unpackPixel w) = w := by
  have := w.isLt
  apply BitVec.eq_of_toNat_eq
  rw [packPixel_toNat]
  simp only [unpackPixel, lane_toNat]
  omega

/-! ### The pixel count -/

theorem pixelCount_le (s : State) : pixelCount s ≤ 65535 * 65535 :=
  Nat.mul_le_mul (Nat.le_of_lt_succ (dimWidth s.imgDim).isLt) (Nat.le_of_lt_succ (dimHeight s.imgDim).isLt)

theorem dimensionsAgree_iff {s : State} : dimensionsAgree s = true ↔
    dimWidth s.imgDim = dimWidth s.keyDim ∧ dimHeight s.imgDim = dimHeight s.keyDim := by
  simp [dimensionsAgree]

/-! ### Buffers -/

@[simp] theorem coverBuffer_base (s : State) : (coverBuffer s).base = s.coverBase.toNat := rfl
@[simp] theorem coverBuffer_size (s : State) : (coverBuffer s).size = 4 * pixelCount s := rfl
@[simp] theorem payloadBuffer_base (s : State) : (payloadBuffer s).base = s.payloadBase.toNat := rfl
@[simp] theorem payloadBuffer_size (s : State) : (payloadBuffer s).size = s.len.toNat := rfl
@[simp] theorem lockBuffer_base (s : State) : (lockBuffer s).base = s.lockBase.toNat := rfl
@[simp] theorem lockBuffer_size (s : State) : (lockBuffer s).size = 4 * pixelCount s := rfl
@[simp] theorem keyBuffer_base (s : State) : (keyBuffer s).base = s.keyBase.toNat := rfl
@[simp] theorem keyBuffer_size (s : State) : (keyBuffer s).size = 4 * pixelCount s := rfl
@[simp] theorem outBuffer_base (s : State) : (outBuffer s).base = s.outBase.toNat := rfl
@[simp] theorem outBuffer_size (s : State) : (outBuffer s).size = pixelCount s := rfl

theorem Buffer.apart_cases {x y : Buffer} : x.apart y = true ↔
    x.size = 0 ∨ y.size = 0 ∨ x.base + x.size ≤ y.base ∨ y.base + y.size ≤ x.base := by
  simp [Buffer.apart, or_assoc]

theorem Buffer.inRange_cases {x : Buffer} {n : Nat} : x.inRange n = true ↔ x.size = 0 ∨ x.base + x.size ≤ n := by
  simp [Buffer.inRange]

theorem encodeKeepsApart_iff {s : State} : encodeKeepsApart s = true ↔
    (s.lockBase = s.coverBase ∨ (lockBuffer s).apart (coverBuffer s) = true)
      ∧ (lockBuffer s).apart (payloadBuffer s) = true := by
  simp [encodeKeepsApart]

theorem decodeKeepsApart_iff {s : State} : decodeKeepsApart s = true ↔
    (outBuffer s).apart (lockBuffer s) = true ∧ (outBuffer s).apart (keyBuffer s) = true := by
  simp [decodeKeepsApart]

theorem encodeInRange_iff {s : State} : encodeInRange s = true ↔
    (coverBuffer s).inRange s.memBytes = true ∧ (lockBuffer s).inRange s.memBytes = true
      ∧ (payloadBuffer s).inRange s.memBytes = true := by
  simp [encodeInRange, and_assoc]

theorem decodeInRange_iff {s : State} : decodeInRange s = true ↔
    (lockBuffer s).inRange s.memBytes = true ∧ (keyBuffer s).inRange s.memBytes = true
      ∧ (outBuffer s).inRange s.memBytes = true := by
  simp [decodeInRange, and_assoc]

theorem Buffer.holds_iff {x : Buffer} {a : Nat} : x.holds a = true ↔ x.base ≤ a ∧ a < x.base + x.size := by
  simp [Buffer.holds]

/-- The test of R54 says what it should: no byte is in both buffers. -/
theorem Buffer.apart_iff {x y : Buffer} :
    x.apart y = true ↔ ∀ a, x.holds a = true → y.holds a = true → False := by
  simp only [Buffer.apart, Buffer.holds_iff, Bool.or_eq_true, decide_eq_true_eq]
  constructor
  · intro h a hx hy
    omega
  · intro h
    by_contra hn
    exact h (max x.base y.base) (by omega) (by omega)

theorem Buffer.lt_of_inRange {x : Buffer} {n a : Nat} (h : x.inRange n = true) (ha : x.holds a = true) : a < n := by
  simp only [Buffer.inRange, Bool.or_eq_true, decide_eq_true_eq] at h
  rw [Buffer.holds_iff] at ha
  omega

theorem Buffer.mem_addresses {x : Buffer} {n a : Nat} : a ∈ x.addresses n ↔ x.holds a = true ∧ a < n := by
  rw [Buffer.addresses, List.mem_range'_1, Buffer.holds_iff]
  omega

theorem Memory.read_freeBuffer_other {x : Buffer} {s : State} {a : Nat} (h : x.holds a = false) :
    (freeBuffer x s).mem.read a = s.mem.read a := by
  refine Memory.read_free_other _ _ _ _ fun ha => ?_
  rw [Buffer.mem_addresses, h] at ha
  exact absurd ha.1 (by decide)

theorem wf_freeBuffer {x : Buffer} {s : State} (h : s.mem.wf = true) : (freeBuffer x s).mem.wf = true :=
  Memory.wf_free _ _ h

theorem below_freeBuffer {x : Buffer} {s : State} (h : s.mem.below s.memBytes = true) :
    (freeBuffer x s).mem.below s.memBytes = true :=
  Memory.below_free _ _ (fun _ ha => (Buffer.mem_addresses.1 ha).2) h

end Sys2Proof.Machine
end

