-- ==== Sys2Proof/Laws/Decoder.lean ====
section
/-! SUPPORT. What the pixel loop of DECODE does: the registers it leaves alone, the bytes it recovers, the trim, and the
first malformed pixel (spec/42_decoder.md R102 to R107). -/

namespace Sys2Proof.Machine

/-- The loop changes IDX, LNZ and the memory, nothing else. -/
theorem decodeLoop_eq (is : List Nat) (s : State) :
    (decodeLoop is s).1 =
      { s with idx := (decodeLoop is s).1.idx, lnz := (decodeLoop is s).1.lnz, mem := (decodeLoop is s).1.mem } := by
  induction is generalizing s with
  | nil => rfl
  | cons i is ih =>
    unfold decodeLoop
    split
    · next v _ => exact ih (recover i v (visit i s))
    · rfl

@[simp] theorem decodeLoop_ie (is : List Nat) (s : State) : (decodeLoop is s).1.ie = s.ie := by
  rw [decodeLoop_eq]
@[simp] theorem decodeLoop_phase (is : List Nat) (s : State) : (decodeLoop is s).1.phase = s.phase := by
  rw [decodeLoop_eq]
@[simp] theorem decodeLoop_done (is : List Nat) (s : State) : (decodeLoop is s).1.done = s.done := by
  rw [decodeLoop_eq]
@[simp] theorem decodeLoop_ovr (is : List Nat) (s : State) : (decodeLoop is s).1.ovr = s.ovr := by
  rw [decodeLoop_eq]
@[simp] theorem decodeLoop_err (is : List Nat) (s : State) : (decodeLoop is s).1.err = s.err := by
  rw [decodeLoop_eq]
@[simp] theorem decodeLoop_imgDim (is : List Nat) (s : State) : (decodeLoop is s).1.imgDim = s.imgDim := by
  rw [decodeLoop_eq]
@[simp] theorem decodeLoop_keyDim (is : List Nat) (s : State) : (decodeLoop is s).1.keyDim = s.keyDim := by
  rw [decodeLoop_eq]
@[simp] theorem decodeLoop_len (is : List Nat) (s : State) : (decodeLoop is s).1.len = s.len := by
  rw [decodeLoop_eq]
@[simp] theorem decodeLoop_coverBase (is : List Nat) (s : State) : (decodeLoop is s).1.coverBase = s.coverBase := by
  rw [decodeLoop_eq]
@[simp] theorem decodeLoop_payloadBase (is : List Nat) (s : State) : (decodeLoop is s).1.payloadBase = s.payloadBase := by
  rw [decodeLoop_eq]
@[simp] theorem decodeLoop_lockBase (is : List Nat) (s : State) : (decodeLoop is s).1.lockBase = s.lockBase := by
  rw [decodeLoop_eq]
@[simp] theorem decodeLoop_keyBase (is : List Nat) (s : State) : (decodeLoop is s).1.keyBase = s.keyBase := by
  rw [decodeLoop_eq]
@[simp] theorem decodeLoop_outBase (is : List Nat) (s : State) : (decodeLoop is s).1.outBase = s.outBase := by
  rw [decodeLoop_eq]
@[simp] theorem decodeLoop_outLen (is : List Nat) (s : State) : (decodeLoop is s).1.outLen = s.outLen := by
  rw [decodeLoop_eq]
@[simp] theorem decodeLoop_errIdx (is : List Nat) (s : State) : (decodeLoop is s).1.errIdx = s.errIdx := by
  rw [decodeLoop_eq]
@[simp] theorem decodeLoop_errInfo (is : List Nat) (s : State) : (decodeLoop is s).1.errInfo = s.errInfo := by
  rw [decodeLoop_eq]
@[simp] theorem decodeLoop_pixA (is : List Nat) (s : State) : (decodeLoop is s).1.pixA = s.pixA := by
  rw [decodeLoop_eq]
@[simp] theorem decodeLoop_pixB (is : List Nat) (s : State) : (decodeLoop is s).1.pixB = s.pixB := by
  rw [decodeLoop_eq]
@[simp] theorem decodeLoop_byteIn (is : List Nat) (s : State) : (decodeLoop is s).1.byteIn = s.byteIn := by
  rw [decodeLoop_eq]
@[simp] theorem decodeLoop_res (is : List Nat) (s : State) : (decodeLoop is s).1.res = s.res := by
  rw [decodeLoop_eq]
@[simp] theorem decodeLoop_latch (is : List Nat) (s : State) : (decodeLoop is s).1.latch = s.latch := by
  rw [decodeLoop_eq]
@[simp] theorem decodeLoop_memTop (is : List Nat) (s : State) : (decodeLoop is s).1.memTop = s.memTop := by
  rw [decodeLoop_eq]
@[simp] theorem decodeLoop_script (is : List Nat) (s : State) : (decodeLoop is s).1.script = s.script := by
  rw [decodeLoop_eq]
@[simp] theorem decodeLoop_lastRead (is : List Nat) (s : State) : (decodeLoop is s).1.lastRead = s.lastRead := by
  rw [decodeLoop_eq]
@[simp] theorem decodeLoop_sched (is : List Nat) (s : State) : (decodeLoop is s).1.sched = s.sched := by
  rw [decodeLoop_eq]
@[simp] theorem decodeLoop_draws (is : List Nat) (s : State) : (decodeLoop is s).1.draws = s.draws := by
  rw [decodeLoop_eq]

/-- The loop over one list after another. -/
theorem decodeLoop_append (is js : List Nat) (s : State) :
    decodeLoop (is ++ js) s =
      match decodeLoop is s with
      | (t, none) => decodeLoop js t
      | (t, some e) => (t, some e) := by
  induction is generalizing s with
  | nil => rfl
  | cons i is ih =>
    simp only [List.cons_append, decodeLoop]
    split
    · exact ih _
    · rfl

/-- Once a pixel was malformed the loop has ended; else pixel `n` is next. -/
theorem decodeLoop_range_succ (n : Nat) (s : State) :
    decodeLoop (List.range (n + 1)) s =
      match decodeLoop (List.range n) s with
      | (t, none) =>
        (match decodedAt t n with
         | .ok v => (recover n v (visit n t), none)
         | .malformed d => (visit n t, some (n, d)))
      | (t, some e) => (t, some e) := by
  rw [List.range_succ, decodeLoop_append]
  rcases decodeLoop (List.range n) s with ⟨t, _ | e⟩
  · change decodeLoop [n] t = _
    unfold decodeLoop
    change (match decodedAt t n with
      | .ok v => decodeLoop [] (recover n v (visit n t))
      | .malformed d => (visit n t, some (n, d))) = _
    simp only
    cases decodedAt t n <;> rfl
  · rfl

/-- Bytes outside the out bytes below `n` are left alone. -/
theorem decodeLoop_outside (n : Nat) (s : State) {a : Nat}
    (h : a < s.outBase.toNat ∨ s.outBase.toNat + n ≤ a) :
    (decodeLoop (List.range n) s).1.mem.read a = s.mem.read a := by
  induction n with
  | zero => rfl
  | succ n ih =>
    have ho := decodeLoop_outBase (List.range n) s
    have hr := ih (by omega)
    rw [decodeLoop_range_succ]
    rcases hd : decodeLoop (List.range n) s with ⟨t, _ | e⟩
    · rw [hd] at ho hr
      change t.outBase = s.outBase at ho
      change t.mem.read a = _ at hr
      simp only
      split
      · rw [recover_mem, visit_mem, visit_outBase, ho, Memory.read_write_other _ _ (by omega), hr]
      · exact hr
    · rw [hd] at hr
      exact hr

/-- The lock and the key are not touched by the loop. -/
theorem decodedAt_decodeLoop {s : State} (hk : decodeKeepsApart s = true) {n i : Nat} (hn : n ≤ pixelCount s)
    (hi : i < pixelCount s) : decodedAt (decodeLoop (List.range n) s).1 i = decodedAt s i := by
  obtain ⟨hl, hk⟩ := decodeKeepsApart_iff.1 hk
  rw [Buffer.apart_cases, outBuffer_base, outBuffer_size] at hl hk
  rw [lockBuffer_base, lockBuffer_size] at hl
  rw [keyBuffer_base, keyBuffer_size] at hk
  simp only [decodedAt, decodeLoop_lockBase, decodeLoop_keyBase]
  congr 1 <;>
  · refine Memory.readColour_congr fun k hk3 => decodeLoop_outside n s ?_
    omega

/-- One past the last index below `n` whose byte is not 0, or 0: the trim of R105. -/
def trimmed (f : Nat → Byte) : Nat → Nat
  | 0 => 0
  | n + 1 => if f n ≠ 0 then n + 1 else trimmed f n

theorem trimmed_le (f : Nat → Byte) (n : Nat) : trimmed f n ≤ n := by
  induction n with
  | zero => exact Nat.le_refl 0
  | succ n ih =>
    unfold trimmed
    split <;> omega

/-- Every byte from the trim on is 0. -/
theorem eq_zero_of_trimmed_le {f : Nat → Byte} {n i : Nat} (h : trimmed f n ≤ i) (hi : i < n) : f i = 0 := by
  induction n with
  | zero => omega
  | succ n ih =>
    unfold trimmed at h
    split at h
    · omega
    · next hz =>
      rcases Nat.lt_or_ge i n with hlt | hge
      · exact ih h hlt
      · obtain rfl : i = n := by omega
        simpa using hz

/-- The last byte the trim keeps is not 0. -/
theorem ne_zero_of_trimmed {f : Nat → Byte} {n : Nat} (h : trimmed f n ≠ 0) : f (trimmed f n - 1) ≠ 0 := by
  induction n with
  | zero => exact absurd rfl h
  | succ n ih =>
    unfold trimmed at h ⊢
    split
    · next hz => simpa using hz
    · next hz =>
      rw [if_neg hz] at h
      exact ih h

/-- Where every pixel below `n` decodes, the loop runs through, recovers each byte and counts the trim. -/
theorem decodeLoop_ok {s : State} (hk : decodeKeepsApart s = true) {f : Nat → Byte} {n : Nat} (hn : n ≤ pixelCount s)
    (hf : ∀ i < n, decodedAt s i = .ok (f i)) (hz : s.lnz = 0) :
    (decodeLoop (List.range n) s).2 = none ∧
    (∀ i < n, (decodeLoop (List.range n) s).1.mem.read (s.outBase.toNat + i) = f i) ∧
    (decodeLoop (List.range n) s).1.lnz = BitVec.ofNat 32 (trimmed f n) := by
  induction n with
  | zero => exact ⟨rfl, fun i hi => absurd hi (by omega), hz⟩
  | succ n ih =>
    obtain ⟨h1, h2, h3⟩ := ih (by omega) fun i hi => hf i (by omega)
    have hd := decodedAt_decodeLoop hk (n := n) (i := n) (by omega) (by omega)
    have ho := decodeLoop_outBase (List.range n) s
    rw [hf n (by omega)] at hd
    rw [decodeLoop_range_succ]
    rcases hl : decodeLoop (List.range n) s with ⟨t, _ | e⟩
    · rw [hl] at h2 h3 hd ho
      simp only at h2 h3 hd ho
      simp only [hd]
      refine ⟨trivial, fun i hi => ?_, ?_⟩
      · rw [recover_mem, visit_mem, visit_outBase, ho, Memory.read_write]
        split
        · next he =>
          obtain rfl : n = i := by omega
          rfl
        · next he => exact h2 i (by omega)
      · rw [recover_lnz, visit_lnz, trimmed, h3]
        split <;> rfl
    · rw [hl] at h1
      exact absurd h1 (by simp)

/-- Where pixel `i` is the first malformed one, the loop ends there and reports it. -/
theorem decodeLoop_malformed {s : State} (hk : decodeKeepsApart s = true) {n i : Nat} (hn : n ≤ pixelCount s)
    (hi : i < n) {d : Triple} (hlow : ∀ j < i, ∃ v, decodedAt s j = .ok v) (hd : decodedAt s i = .malformed d) :
    (decodeLoop (List.range n) s).2 = some (i, d) := by
  have hrun : ∀ m ≤ i, (decodeLoop (List.range m) s).2 = none := by
    intro m
    induction m with
    | zero => exact fun _ => rfl
    | succ m ih =>
      intro hm
      have h1 := ih (by omega)
      obtain ⟨v, hv⟩ := hlow m (by omega)
      have hm' := decodedAt_decodeLoop hk (n := m) (i := m) (by omega) (by omega)
      rw [hv] at hm'
      rw [decodeLoop_range_succ]
      rcases hl : decodeLoop (List.range m) s with ⟨t, _ | e⟩
      · rw [hl] at hm'
        simp only at hm'
        simp only [hm']
      · rw [hl] at h1
        exact absurd h1 (by simp)
  induction n with
  | zero => omega
  | succ n ih =>
    rw [decodeLoop_range_succ]
    rcases Nat.lt_or_ge i n with hlt | hge
    · have := ih (by omega) hlt
      rcases hl : decodeLoop (List.range n) s with ⟨t, _ | e⟩
      · rw [hl] at this
        exact absurd this (by simp)
      · rw [hl] at this
        exact this
    · obtain rfl : i = n := by omega
      have h1 := hrun i (Nat.le_refl _)
      have hd' := decodedAt_decodeLoop hk (n := i) (i := i) (by omega) (by omega)
      rw [hd] at hd'
      rcases hl : decodeLoop (List.range i) s with ⟨t, _ | e⟩
      · rw [hl] at hd'
        simp only at hd'
        simp only [hd']
      · rw [hl] at h1
        exact absurd h1 (by simp)

/-- The pixel the loop reports is malformed, with the differences it reports, and every pixel before it decodes. -/
theorem decodeLoop_reports {s : State} (hk : decodeKeepsApart s = true) {n : Nat} (hn : n ≤ pixelCount s) :
    match (decodeLoop (List.range n) s).2 with
    | none => ∀ i < n, ∃ v, decodedAt s i = .ok v
    | some (i, d) => i < n ∧ decodedAt s i = .malformed d ∧ ∀ j < i, ∃ v, decodedAt s j = .ok v := by
  induction n with
  | zero => exact fun i hi => absurd hi (by omega)
  | succ n ih =>
    have h := ih (by omega)
    have hd := decodedAt_decodeLoop hk (n := n) (i := n) (by omega) (by omega)
    rw [decodeLoop_range_succ]
    rcases hl : decodeLoop (List.range n) s with ⟨t, _ | e⟩
    · rw [hl] at h hd
      simp only at h hd
      cases hc : decodedAt t n with
      | ok v =>
        simp only [hc]
        intro i hi
        rcases Nat.lt_or_ge i n with hlt | hge
        · exact h i hlt
        · obtain rfl : i = n := by omega
          exact ⟨v, hd ▸ hc⟩
      | malformed d =>
        simp only [hc]
        exact ⟨by omega, hd ▸ hc, h⟩
    · rw [hl] at h
      simp only at h ⊢
      exact ⟨by omega, h.2⟩

theorem wf_decodeLoop (is : List Nat) {s : State} (h : s.mem.wf = true) : (decodeLoop is s).1.mem.wf = true := by
  induction is generalizing s with
  | nil => exact h
  | cons i is ih =>
    unfold decodeLoop
    split
    · next v _ => exact ih (s := recover i v (visit i s)) (Memory.wf_write _ _ h)
    · exact h

theorem below_decodeLoop {n m : Nat} {s : State} (hb : n = 0 ∨ s.outBase.toNat + n ≤ m)
    (h : s.mem.below m = true) : (decodeLoop (List.range n) s).1.mem.below m = true := by
  induction n with
  | zero => exact h
  | succ n ih =>
    have hi := ih (by omega)
    have ho := decodeLoop_outBase (List.range n) s
    rw [decodeLoop_range_succ]
    rcases hl : decodeLoop (List.range n) s with ⟨t, _ | e⟩
    · rw [hl] at hi ho
      simp only at hi ho
      simp only
      split
      · rw [recover_mem, visit_mem, visit_outBase, ho]
        exact Memory.below_write _ (by omega) hi
      · exact hi
    · rw [hl] at hi
      exact hi

end Sys2Proof.Machine
end

