-- ==== Sys2Proof/Laws/Encoder.lean ====
section
/-! SUPPORT. What the pixel loop of ENCODE does: the registers it leaves alone, the pixels it writes, the bytes it leaves
alone (spec/41_encoder.md R88, R90, R93). -/

namespace Sys2Proof.Machine

/-- The loop changes IDX and the memory, nothing else. -/
theorem encodeLoop_eq (is : List Nat) (s : State) :
    encodeLoop is s = { s with idx := (encodeLoop is s).idx, mem := (encodeLoop is s).mem } := by
  induction is generalizing s with
  | nil => rfl
  | cons i is ih => exact ih (encodeAt s i)

@[simp] theorem encodeLoop_ie (is : List Nat) (s : State) : (encodeLoop is s).ie = s.ie := by
  rw [encodeLoop_eq]
@[simp] theorem encodeLoop_phase (is : List Nat) (s : State) : (encodeLoop is s).phase = s.phase := by
  rw [encodeLoop_eq]
@[simp] theorem encodeLoop_done (is : List Nat) (s : State) : (encodeLoop is s).done = s.done := by
  rw [encodeLoop_eq]
@[simp] theorem encodeLoop_ovr (is : List Nat) (s : State) : (encodeLoop is s).ovr = s.ovr := by
  rw [encodeLoop_eq]
@[simp] theorem encodeLoop_err (is : List Nat) (s : State) : (encodeLoop is s).err = s.err := by
  rw [encodeLoop_eq]
@[simp] theorem encodeLoop_imgDim (is : List Nat) (s : State) : (encodeLoop is s).imgDim = s.imgDim := by
  rw [encodeLoop_eq]
@[simp] theorem encodeLoop_keyDim (is : List Nat) (s : State) : (encodeLoop is s).keyDim = s.keyDim := by
  rw [encodeLoop_eq]
@[simp] theorem encodeLoop_len (is : List Nat) (s : State) : (encodeLoop is s).len = s.len := by
  rw [encodeLoop_eq]
@[simp] theorem encodeLoop_coverBase (is : List Nat) (s : State) : (encodeLoop is s).coverBase = s.coverBase := by
  rw [encodeLoop_eq]
@[simp] theorem encodeLoop_payloadBase (is : List Nat) (s : State) : (encodeLoop is s).payloadBase = s.payloadBase := by
  rw [encodeLoop_eq]
@[simp] theorem encodeLoop_lockBase (is : List Nat) (s : State) : (encodeLoop is s).lockBase = s.lockBase := by
  rw [encodeLoop_eq]
@[simp] theorem encodeLoop_keyBase (is : List Nat) (s : State) : (encodeLoop is s).keyBase = s.keyBase := by
  rw [encodeLoop_eq]
@[simp] theorem encodeLoop_outBase (is : List Nat) (s : State) : (encodeLoop is s).outBase = s.outBase := by
  rw [encodeLoop_eq]
@[simp] theorem encodeLoop_outLen (is : List Nat) (s : State) : (encodeLoop is s).outLen = s.outLen := by
  rw [encodeLoop_eq]
@[simp] theorem encodeLoop_errIdx (is : List Nat) (s : State) : (encodeLoop is s).errIdx = s.errIdx := by
  rw [encodeLoop_eq]
@[simp] theorem encodeLoop_errInfo (is : List Nat) (s : State) : (encodeLoop is s).errInfo = s.errInfo := by
  rw [encodeLoop_eq]
@[simp] theorem encodeLoop_pixA (is : List Nat) (s : State) : (encodeLoop is s).pixA = s.pixA := by
  rw [encodeLoop_eq]
@[simp] theorem encodeLoop_pixB (is : List Nat) (s : State) : (encodeLoop is s).pixB = s.pixB := by
  rw [encodeLoop_eq]
@[simp] theorem encodeLoop_byteIn (is : List Nat) (s : State) : (encodeLoop is s).byteIn = s.byteIn := by
  rw [encodeLoop_eq]
@[simp] theorem encodeLoop_res (is : List Nat) (s : State) : (encodeLoop is s).res = s.res := by
  rw [encodeLoop_eq]
@[simp] theorem encodeLoop_latch (is : List Nat) (s : State) : (encodeLoop is s).latch = s.latch := by
  rw [encodeLoop_eq]
@[simp] theorem encodeLoop_memTop (is : List Nat) (s : State) : (encodeLoop is s).memTop = s.memTop := by
  rw [encodeLoop_eq]
@[simp] theorem encodeLoop_script (is : List Nat) (s : State) : (encodeLoop is s).script = s.script := by
  rw [encodeLoop_eq]
@[simp] theorem encodeLoop_lastRead (is : List Nat) (s : State) : (encodeLoop is s).lastRead = s.lastRead := by
  rw [encodeLoop_eq]
@[simp] theorem encodeLoop_sched (is : List Nat) (s : State) : (encodeLoop is s).sched = s.sched := by
  rw [encodeLoop_eq]
@[simp] theorem encodeLoop_draws (is : List Nat) (s : State) : (encodeLoop is s).draws = s.draws := by
  rw [encodeLoop_eq]

@[simp] theorem encodeLoop_lnz (is : List Nat) (s : State) : (encodeLoop is s).lnz = s.lnz := by
  rw [encodeLoop_eq]

theorem encodeLoop_range_succ (n : Nat) (s : State) :
    encodeLoop (List.range (n + 1)) s = encodeAt (encodeLoop (List.range n) s) n := by
  simp [encodeLoop, List.range_succ]

/-- Bytes outside the lock pixels below `n` are left alone. -/
theorem encodeLoop_outside (n : Nat) (s : State) {a : Nat}
    (h : a < s.lockBase.toNat ∨ s.lockBase.toNat + 4 * n ≤ a) :
    (encodeLoop (List.range n) s).mem.read a = s.mem.read a := by
  induction n with
  | zero => rfl
  | succ n ih =>
    rw [encodeLoop_range_succ, encodeAt_mem, encodeLoop_lockBase, Memory.read_writePixel_other _ _ (by omega)]
    exact ih (by omega)

/-- The cover pixel `i` has not been touched before its turn, in place or not. -/
theorem encodeLoop_cover {s : State} (hk : encodeKeepsApart s = true) {n i : Nat} (hn : n ≤ i)
    (hi : i < pixelCount s) :
    (encodeLoop (List.range n) s).mem.readPixel (s.coverBase.toNat + 4 * i)
      = s.mem.readPixel (s.coverBase.toNat + 4 * i) := by
  refine Memory.readPixel_congr fun k hk4 => encodeLoop_outside n s ?_
  rcases (encodeKeepsApart_iff.1 hk).1 with he | ha
  · rw [he]
    omega
  · rw [Buffer.apart_cases, lockBuffer_base, lockBuffer_size, coverBuffer_base, coverBuffer_size] at ha
    omega

/-- The payload is not touched by the loop. -/
theorem encodeLoop_payload {s : State} (hk : encodeKeepsApart s = true) {n : Nat} (hn : n ≤ pixelCount s) (i : Nat) :
    payloadByte (encodeLoop (List.range n) s) i = payloadByte s i := by
  unfold payloadByte
  simp only [encodeLoop_len, encodeLoop_payloadBase]
  split
  · next hi =>
    refine encodeLoop_outside n s ?_
    have ha := Buffer.apart_cases.1 (encodeKeepsApart_iff.1 hk).2
    rw [lockBuffer_base, lockBuffer_size, payloadBuffer_base, payloadBuffer_size] at ha
    omega
  · rfl

/-- Every lock pixel of the loop is its cover pixel with its payload byte encoded. -/
theorem encodeLoop_pixel {s : State} (hk : encodeKeepsApart s = true) {n i : Nat} (hn : n ≤ pixelCount s) (hi : i < n) :
    (encodeLoop (List.range n) s).mem.readPixel (s.lockBase.toNat + 4 * i)
      = encPixel (s.mem.readPixel (s.coverBase.toNat + 4 * i)) (payloadByte s i) := by
  induction n with
  | zero => omega
  | succ n ih =>
    rw [encodeLoop_range_succ, encodeAt_mem, encodeLoop_lockBase, encodeLoop_coverBase]
    rcases Nat.lt_or_ge i n with hlt | hge
    · rw [Memory.readPixel_congr fun k hk4 => Memory.read_writePixel_other _ _ (by omega)]
      exact ih (by omega) hlt
    · obtain rfl : i = n := by omega
      rw [Memory.readPixel_writePixel_same, encodeLoop_payload hk (by omega),
        encodeLoop_cover hk (Nat.le_refl _) (by omega)]

theorem wf_encodeLoop (is : List Nat) {s : State} (h : s.mem.wf = true) : (encodeLoop is s).mem.wf = true := by
  induction is generalizing s with
  | nil => exact h
  | cons i is ih => exact ih (s := encodeAt s i) (Memory.wf_writePixel _ _ h)

theorem below_encodeLoop {n m : Nat} {s : State} (hb : n = 0 ∨ s.lockBase.toNat + 4 * n ≤ m)
    (h : s.mem.below m = true) : (encodeLoop (List.range n) s).mem.below m = true := by
  induction n with
  | zero => exact h
  | succ n ih =>
    rw [encodeLoop_range_succ, encodeAt_mem, encodeLoop_lockBase]
    exact Memory.below_writePixel _ (by omega) (ih (by omega))

end Sys2Proof.Machine
end

