-- ==== Sys2Proof/Laws/PerInstr.lean ====
section
/-! SUPPORT. Facts stated of every command as syntax, one lemma per constructor. -/

namespace Sys2Proof.Laws.TableRow

/-- The command word fits the command's row of spec/opcode_table.json. -/
def Statement (i : Instr) : Prop := Sys2Proof.encode i &&& i.row.mask = i.row.pattern

theorem nop : Statement .nop := rfl

theorem digits : Statement .digits := rfl

theorem encpx : Statement .encpx := rfl

theorem decpx : Statement .decpx := rfl

theorem encode : Statement .encode := rfl

theorem decode : Statement .decode := rfl

theorem illegal (w : Word) : Statement (.illegal w) := BitVec.and_zero

end Sys2Proof.Laws.TableRow
end

