-- ==== Sys2Proof/Laws/Step.lean ====
section
/-! SUPPORT. What an execution of a frame command, a reset, a register access and a step can do, said once. -/

namespace Sys2Proof.Machine

/-! ### Frame commands -/

theorem encodeReady_iff {s : State} : encodeReady s = true ↔
    s.len.toNat ≤ pixelCount s ∧ encodeInRange s = true ∧ encodeKeepsApart s = true := by
  simp [encodeReady, and_assoc]

theorem decodeReady_iff {s : State} : decodeReady s = true ↔
    dimensionsAgree s = true ∧ decodeInRange s = true ∧ decodeKeepsApart s = true := by
  simp [decodeReady, and_assoc]

/-- Everything ENCODE can answer with (R88, R89). -/
theorem execEncode_cases (s : State) :
    (pixelCount s < s.len.toNat ∧ execEncode s = .next (raise .capacityExceeded s)) ∨
    (s.len.toNat ≤ pixelCount s ∧ encodeInRange s = false ∧ execEncode s = .next (raise .rangeFault s)) ∨
    (s.len.toNat ≤ pixelCount s ∧ encodeInRange s = true ∧ encodeKeepsApart s = false
      ∧ execEncode s = .refused .bufferOverlap) ∨
    (encodeReady s = true ∧ execEncode s = .next (complete (encodeLoop (frameIndices s) s))) := by
  unfold execEncode
  rcases Nat.lt_or_ge (pixelCount s) s.len.toNat with h | h
  · exact .inl ⟨h, if_pos h⟩
  · rw [if_neg (Nat.not_lt.2 h)]
    cases hr : encodeInRange s
    · exact .inr (.inl ⟨h, rfl, rfl⟩)
    · cases hk : encodeKeepsApart s
      · exact .inr (.inr (.inl ⟨h, rfl, rfl, rfl⟩))
      · exact .inr (.inr (.inr ⟨encodeReady_iff.2 ⟨h, hr, hk⟩, rfl⟩))

/-- Everything DECODE can answer with (R102, R103). -/
theorem execDecode_cases (s : State) :
    (dimensionsAgree s = false ∧ execDecode s = .next (raise .dimensionMismatch { s with outLen := 0 })) ∨
    (dimensionsAgree s = true ∧ decodeInRange s = false
      ∧ execDecode s = .next (raise .rangeFault { s with outLen := 0 })) ∨
    (dimensionsAgree s = true ∧ decodeInRange s = true ∧ decodeKeepsApart s = false
      ∧ execDecode s = .refused .bufferOverlap) ∨
    (decodeReady s = true
      ∧ execDecode s = .next (decodeEnd (decodeLoop (frameIndices s) { s with lnz := 0 }))) := by
  unfold execDecode
  cases hd : dimensionsAgree s
  · exact .inl ⟨rfl, rfl⟩
  · cases hr : decodeInRange s
    · exact .inr (.inl ⟨rfl, rfl, rfl⟩)
    · cases hk : decodeKeepsApart s
      · exact .inr (.inr (.inl ⟨rfl, rfl, rfl, rfl⟩))
      · exact .inr (.inr (.inr ⟨decodeReady_iff.2 ⟨hd, hr, hk⟩, rfl⟩))

/-- DECPX reports a malformed pixel or writes RES (R101). -/
theorem execDecpx_cases (s : State) :
    (∃ v, decPixel (unpackPixel s.pixA) (unpackPixel s.pixB) = .ok v
      ∧ execDecpx s = .next (complete { s with res := v.setWidth 32 })) ∨
    (∃ d, decPixel (unpackPixel s.pixA) (unpackPixel s.pixB) = .malformed d
      ∧ execDecpx s = .next (raiseMalformed 0 d s)) := by
  unfold execDecpx
  cases decPixel (unpackPixel s.pixA) (unpackPixel s.pixB) with
  | ok v => exact .inl ⟨v, rfl, rfl⟩
  | malformed d => exact .inr ⟨d, rfl, rfl⟩

/-! ### Reset -/

/-- Abandoning a command changes the memory and the count of draws, nothing else. -/
theorem abandon_eq (s : State) : abandon s = { s with mem := (abandon s).mem, draws := (abandon s).draws } := by
  have key : ∀ (xs : List Buffer) (t : State), xs.foldl (fun u x => freeBuffer x u) t =
      { t with mem := (xs.foldl (fun u x => freeBuffer x u) t).mem,
               draws := (xs.foldl (fun u x => freeBuffer x u) t).draws } := by
    intro xs
    induction xs with
    | nil => exact fun t => rfl
    | cons x xs ih => exact fun t => ih (freeBuffer x t)
  unfold abandon
  split
  · exact key _ _
  · rfl

/-- Everything a reset can answer with (R152, R153; log 11). -/
theorem resetBlock_cases (s : State) :
    (s.busy = true ∧ latchedBreach s = true ∧ resetBlock s = .refused .bufferOverlap) ∨
    ((s.busy && latchedBreach s) = false ∧ resetBlock s = .next (blockReset (abandon s))) := by
  unfold resetBlock
  cases hb : s.busy <;> cases hl : latchedBreach s <;> simp

/-! ### The register window -/

@[simp] theorem regAt_offset (r : Reg) : regAt r.offset = some r := by
  cases r <;> decide

@[simp] theorem supported_offset (r : Reg) : supported .word r.offset = true := by
  cases r <;> decide

/-- A word write at a register's offset is the write of that register. -/
theorem hostOp_wr_offset (r : Reg) (v : Word) (s : State) :
    hostOp (.wr .word r.offset v) s = regWrite r v s := by
  simp [hostOp, hostWr, windowWrite]

/-- A word read at a register's offset is the read of that register. -/
theorem hostOp_rd_offset (r : Reg) (s : State) :
    hostOp (.rd .word r.offset) s = .next { s with lastRead := regRead r s } := by
  simp [hostOp, hostRd, windowRead]

/-- What a register write that is answered leaves: one of a few states, `u` being an idle write of a RW register. -/
theorem regWrite_cases {r : Reg} {v : Word} {s t : State} (h : regWrite r v s = .next t) :
    t = s ∨
    (r = .ctrl ∧ v.getLsbD 1 = true ∧ resetBlock s = .next t) ∨
    (r = .ctrl ∧ v.getLsbD 1 = false ∧ t = { s with ie := v.getLsbD 0 }) ∨
    (r = .status ∧ t = clearStatus v s) ∨
    (r = .cmd ∧ s.phase = .idle ∧ t = accept v s) ∨
    (s.phase = .busy ∧ t = overrun s) ∨
    (s.phase = .idle ∧ t =
      { s with imgDim := t.imgDim, keyDim := t.keyDim, len := t.len, coverBase := t.coverBase,
               payloadBase := t.payloadBase, lockBase := t.lockBase, keyBase := t.keyBase, outBase := t.outBase,
               pixA := t.pixA, pixB := t.pixB, byteIn := t.byteIn }) := by
  rcases phase_cases s with hp | hp
  · have hb := busy_eq_false.2 hp
    cases r <;>
      simp only [regWrite, writeCtrl, writeCmd, gated, hb, Bool.false_eq_true, if_false, Host.Outcome.next.injEq] at h
    case ctrl =>
      cases hv : v.getLsbD 1 <;> simp only [hv, if_true, Bool.false_eq_true, if_false] at h
      · exact .inr (.inr (.inl ⟨rfl, rfl, (Host.Outcome.next.inj h).symm⟩))
      · exact .inr (.inl ⟨rfl, rfl, h⟩)
    case status => exact .inr (.inr (.inr (.inl ⟨rfl, h.symm⟩)))
    case cmd => exact .inr (.inr (.inr (.inr (.inl ⟨rfl, hp, h.symm⟩))))
    all_goals first
      | exact .inl h.symm
      | (subst h; exact .inr (.inr (.inr (.inr (.inr (.inr ⟨hp, rfl⟩))))))
  · have hb := busy_eq_true.2 hp
    cases r <;> simp only [regWrite, writeCtrl, writeCmd, gated, hb, if_true, Host.Outcome.next.injEq] at h
    case ctrl =>
      cases hv : v.getLsbD 1 <;> simp only [hv, if_true, Bool.false_eq_true, if_false] at h
      · exact .inr (.inr (.inl ⟨rfl, rfl, (Host.Outcome.next.inj h).symm⟩))
      · exact .inr (.inl ⟨rfl, rfl, h⟩)
    case status => exact .inr (.inr (.inr (.inl ⟨rfl, h.symm⟩)))
    all_goals first
      | exact .inl h.symm
      | exact .inr (.inr (.inr (.inr (.inr (.inl ⟨hp, h.symm⟩)))))

/-- The register at an offset has that offset. -/
theorem offset_of_regAt {off : Word} {r : Reg} (h : regAt off = some r) : off = r.offset := by
  have := List.find?_some h
  exact (beq_iff_eq.1 this).symm

/-- Everything a host operation that is answered can leave: a value read; the polling loop laid down again; one byte
written; a register write; or nothing. -/
theorem hostOp_cases_next {op : HostOp} {s t : State} (h : hostOp op s = .next t) :
    (∃ x, t = { s with lastRead := x }) ∨
    (op = .wait ∧ t = { s with lastRead := t.lastRead, script := t.script }) ∨
    (∃ a v, op = .mwr a v ∧ a.toNat < s.memBytes ∧ t = { s with mem := s.mem.write a.toNat v }) ∨
    (∃ off v r, op = .wr .word off v ∧ off = Reg.offset r ∧ regWrite r v s = .next t) ∨
    (∃ off v, op = .wr .word off v ∧ t = s) := by
  cases op with
  | rd w off =>
    simp only [hostOp, hostRd] at h
    split at h <;> cases h
    exact .inl ⟨_, rfl⟩
  | mrd a =>
    simp only [hostOp, hostMrd] at h
    split at h
    · cases h
    split at h <;> cases h
    exact .inl ⟨_, rfl⟩
  | mwr a v =>
    simp only [hostOp, hostMwr] at h
    split at h
    · cases h
    split at h <;> cases h
    exact .inr (.inr (.inl ⟨a, v, rfl, by omega, rfl⟩))
  | wait =>
    cases h
    refine .inr (.inl ⟨rfl, ?_⟩)
    unfold hostWait
    dsimp only
    split <;> rfl
  | wr w off v =>
    simp only [hostOp, hostWr] at h
    split at h
    · next hs =>
      have hw : w = .word := by simp [supported] at hs; exact hs.1.1
      subst hw
      unfold windowWrite at h
      split at h
      · next r hr => exact .inr (.inr (.inr (.inl ⟨off, v, r, rfl, offset_of_regAt hr, h⟩)))
      · cases h; exact .inr (.inr (.inr (.inr ⟨off, v, rfl, rfl⟩)))
    · cases h

/-- A step changes no more of the host's side than its own turn and its own operation. -/
theorem turnTaken_eq (s : State) :
    turnTaken s = { s with sched := (turnTaken s).sched, script := (turnTaken s).script } := by
  unfold turnTaken
  split <;> rfl

/-! ### Placing a command -/

@[simp] theorem running_accept (w : Word) (s : State) : running (accept w s) = Sys2Proof.decode w := rfl

/-- A placed command is the one the next step runs (log 15). -/
theorem step_placeCommand (w : Word) (s : State) :
    step (placeCommand w s) = exec (Sys2Proof.decode w) (accept w s) := rfl

/-! ### Runs -/

theorem core_run_of_next {s t : State} (k : Nat) (h : step s = .next t) :
    Sys2Proof.core.run (k + 1) s = Sys2Proof.core.run k t := by
  have hs : Sys2Proof.core.step s = .next t := h
  exact (Host.Core.run.eq_2 Sys2Proof.core s k).trans (by rw [hs])

theorem core_run_of_fault {s : State} {r : Fault} (k : Nat) (h : step s = .fault r) :
    Sys2Proof.core.run (k + 1) s = .fault r := by
  have hs : Sys2Proof.core.step s = .fault r := h
  exact (Host.Core.run.eq_2 Sys2Proof.core s k).trans (by rw [hs])

theorem core_run_of_refused {s : State} {r : Refusal} (k : Nat) (h : step s = .refused r) :
    Sys2Proof.core.run (k + 1) s = .refused r := by
  have hs : Sys2Proof.core.step s = .refused r := h
  exact (Host.Core.run.eq_2 Sys2Proof.core s k).trans (by rw [hs])

end Sys2Proof.Machine
end

