-- ==== Sys2Proof/Tests/Slice0.lean ====
section
/-! SUPPORT. The model's own tests. Expected values are those of spec/95_test_vectors.md and spec/30_encoding.md; a
theorem `witness_<Name>` shows a state that meets the hypotheses of `Obligations.<Name>`, one for each clause. -/

namespace Sys2Proof.Tests

open Sys2Proof Sys2Proof.Machine

/-! ### Helpers -/

/-- Does the outcome answer a next state? -/
def runs (o : Host.Outcome State Fault Refusal) : Bool :=
  match o with
  | .next _ => true
  | .fault _ | .refused _ => false

/-- The next state an outcome answers, the reset state where it answers none. -/
def after (o : Host.Outcome State Fault Refusal) : State :=
  match o with
  | .next t => t
  | .fault _ | .refused _ => State.reset

theorem next_after {o : Host.Outcome State Fault Refusal} (h : runs o = true) : o = .next (after o) := by
  cases o with
  | next t => rfl
  | fault r => cases h
  | refused r => cases h

/-- The 4 KiB platform of spec/95_test_vectors.md, after reset. -/
def board : State := State.powerUp 0xFFF

/-- The cover and the payload of S1, with alpha bytes A0 and A1. -/
def coverAndPayload : Memory :=
  [(0x100, 10), (0x101, 10), (0x102, 10), (0x103, 0xA0), (0x104, 200), (0x105, 200), (0x106, 200), (0x107, 0xA1),
   (0x200, 0x07), (0x201, 0x78)]

/-- Vector E1. -/
def e1 : State :=
  { board with
    imgDim := 0x00010002, len := 2, coverBase := 0x100, payloadBase := 0x200, lockBase := 0x300
    mem := coverAndPayload }

/-- Vector F1: the lock that E1 gives, its cover as the key. -/
def f1 : State :=
  { e1 with
    keyDim := 0x00010002, keyBase := 0x100, outBase := 0x400
    mem := coverAndPayload ++ [(0x300, 0x0A), (0x301, 0x0A), (0x302, 0x03), (0x303, 0xA0), (0x304, 0xC7), (0x305, 0xC1),
      (0x306, 0xC8), (0x307, 0xA1)] }

/-- Vector F11: pixel 1 of 2x2 differs by (0,16,0). -/
def f11 : State :=
  { board with
    imgDim := 0x00020002, keyDim := 0x00020002, lockBase := 0x100, keyBase := 0x200, outBase := 0x300, outLen := 9
    mem := [(0x100, 1), (0x105, 16)] }

/-- The engine is running the command of the word `w`. -/
def busyWith (w : Word) (s : State) : State := accept w s

/-! ### Well-formedness and decoding -/

theorem test_wellFormed_refuses_legal_word : (Instr.illegal 0x00000010).wellFormed = false := by decide

theorem test_wellFormed_accepts : (Instr.illegal 0x00000110).wellFormed = true ∧ Instr.encode.wellFormed = true := by
  decide

/-- Each word is RSV (24 bits) and OP (8 bits), written out from R64 and R66. -/
theorem test_decode_written_words :
    decode (0b000000000000000000000000#24 ++ 0b00000000#8) = .nop ∧
    decode (0b000000000000000000000000#24 ++ 0b00000001#8) = .digits ∧
    decode (0b000000000000000000000000#24 ++ 0b00000010#8) = .encpx ∧
    decode (0b000000000000000000000000#24 ++ 0b00000011#8) = .decpx ∧
    decode (0b000000000000000000000000#24 ++ 0b00010000#8) = .encode ∧
    decode (0b000000000000000000000000#24 ++ 0b00010001#8) = .decode := by decide

theorem test_decode_illegal_op : decode (0b000000000000000000000000#24 ++ 0b00000100#8) = .illegal 0x00000004 := by
  decide

theorem test_decode_illegal_rsv :
    decode (0b000000000000000000000001#24 ++ 0b00010000#8) = .illegal 0x00000110 ∧
    decode (0b100000000000000000000000#24 ++ 0b00000000#8) = .illegal 0x80000000 := by decide

/-- P1's encoding as bus transactions (spec/95_test_vectors.md Part 3). -/
theorem test_script_encodes_p1 :
    Script.transactions (Script.dim .imgDim 2 1 ++ Script.wr .len 2 ++ Script.wr .coverBase 0x100 ++
      Script.wr .payloadBase 0x200 ++ Script.wr .lockBase 0x300 ++ Script.run .encode ++ Script.ack) =
    [(0x010, 0x00010002), (0x01C, 2), (0x020, 0x100), (0x024, 0x200), (0x028, 0x300), (0x00C, 0x10), (0x008, 2)] := by
  decide

/-! ### Commands -/

/-- T1. -/
theorem test_nop : statusWord (after (step (board.withFetchWord 32 0x00000000))) = 0x00000002 := by decide

/-- T4, T5. -/
theorem test_illegal :
    statusWord (after (step (board.withFetchWord 32 0x00000004))) = 0x00000052 ∧
    statusWord (after (step (board.withFetchWord 32 0x00000110))) = 0x00000052 := by decide

/-- E8 and F6 from State.reset itself, and an illegal word: each runs as the first command (R155). -/
theorem test_first_command_after_reset :
    decodeTableWord 32 0x00000010 = some .encode ∧ decodeTableWord 32 0x00000011 = some .decode ∧
    statusWord (after (step (State.reset.withFetchWord 32 0x00000010))) = 0x00000002 ∧
    statusWord (after (step (State.reset.withFetchWord 32 0x00000011))) = 0x00000002 ∧
    statusWord (after (step (State.reset.withFetchWord 32 0x12345678))) = 0x00000052 := by decide

/-- V-DIG. -/
theorem test_digits :
    (after (exec .digits { board with byteIn := 0x41 })).res = 0x00010001 ∧
    (after (exec .digits { board with byteIn := 0x78 })).res = 0x00000701 ∧
    (after (exec .digits { board with byteIn := 0xFF })).res = 0x00070703 := by decide

/-- V-ENCPX. -/
theorem test_encpx :
    (after (exec .encpx { board with pixA := 0x7F06F803, byteIn := 0xDB })).res = 0x7F03F500 ∧
    (after (exec .encpx { board with pixA := 0x80FFFFFF, byteIn := 0xFF })).res = 0x80F8F8FC ∧
    (after (exec .encpx { board with pixA := 0x00000000, byteIn := 0xFF })).res = 0x00070703 := by decide

/-- V-DECPX. -/
theorem test_decpx :
    (after (exec .decpx { board with pixA := 0xFFC8C1C7, pixB := 0xFFC8C8C8 })).res = 0x00000078 ∧
    (after (exec .decpx { board with pixA := 0x000A0A0D, pixB := 0x000A0A0A })).res = 0x000000C0 := by decide

/-- V-DECPX, malformed rows. -/
theorem test_decpx_malformed :
    statusWord (after (exec .decpx { board with pixA := 0x000A0A0E, pixB := 0x000A0A0A })) = 0x00000032 ∧
    (after (exec .decpx { board with pixA := 0x000A0A03, pixB := 0x000A0A0A, res := 7 })).res = 7 ∧
    (after (exec .decpx { board with pixA := 0x00000000, pixB := 0x00FFFFFF })).errInfo = 0x00FFFFFF := by decide

/-- E1. -/
theorem test_encode_e1 :
    ((List.range 8).map fun k => (after (exec .encode e1)).mem.read (0x300 + k)) =
      [0x0A, 0x0A, 0x03, 0xA0, 0xC7, 0xC1, 0xC8, 0xA1] := by decide +kernel

/-- E5, E6, E9. -/
theorem test_encode_checks :
    (after (exec .encode { board with imgDim := 0x00010003, len := 4, coverBase := 0xFFF0 })).err = .capacityExceeded ∧
    statusWord (after (exec .encode { board with imgDim := 0x00020002, len := 4, coverBase := 0xFF8 })) = 0x00000042 ∧
    (after (exec .encode { board with imgDim := 0x00000005, len := 1 })).err = .capacityExceeded := by decide +kernel

/-- F1. -/
theorem test_decode_f1 :
    (after (exec .decode f1)).mem.read 0x400 = 0x07 ∧ (after (exec .decode f1)).mem.read 0x401 = 0x78 ∧
    (after (exec .decode f1)).outLen = 2 := by decide +kernel

/-- F11. -/
theorem test_decode_f11 :
    (after (exec .decode f11)).err = .malformedPayload ∧ (after (exec .decode f11)).errIdx = 1 ∧
    (after (exec .decode f11)).errInfo = 0x00001000 ∧ (after (exec .decode f11)).outLen = 0 := by decide +kernel

/-! ### The host's side -/

/-- T6. -/
theorem test_overrun :
    let s := after (hostOp (.wr .word 0x00C 0x10) (after (hostOp (.wr .word 0x01C 5) (busyWith 0 board))))
    statusWord s = 0x00000005 ∧ s.len = 0 ∧ s.latch = 0 := by decide

/-- T12, T14, T15. -/
theorem test_window :
    after (hostOp (.wr .word 0x04C 0x1234) (busyWith 0 board)) = busyWith 0 board ∧
    (after (hostOp (.rd .word 0x000) board)).lastRead = 0x53540001 ∧
    ctrlWord (after (hostOp (.wr .word 0x004 0xFFFFFFFD) board)) = 1 := by decide

/-- T2, T3. -/
theorem test_irq :
    (after (exec .nop { board with ie := true })).irq = true ∧
    (after (hostOp (.wr .word 0x004 1) (after (exec .nop board)))).irq = true := by decide

/-- T11. -/
theorem test_soft_reset_while_busy :
    let s := after (hostOp (.wr .word 0x004 3) (busyWith 0x10 { e1 with ie := true }))
    statusWord s = 0 ∧ s.ie = false ∧ s.len = 0 ∧ s.memTop = 0xFFF := by decide +kernel

/-! ### Witnesses -/

theorem witness_OpcodeMapDecodes :
    (0x00000110 : Word).extractLsb' 8 24 ≠ 0 ∧
    (let w : Word := 0x00000004
     w.extractLsb' 0 8 ≠ 0x00 ∧ w.extractLsb' 0 8 ≠ 0x01 ∧ w.extractLsb' 0 8 ≠ 0x02 ∧ w.extractLsb' 0 8 ≠ 0x03 ∧
       w.extractLsb' 0 8 ≠ 0x10 ∧ w.extractLsb' 0 8 ≠ 0x11) := by decide

theorem witness_IllegalWordCompletes : (0xFFFFFF00 : Word).extractLsb' 8 24 ≠ 0 := by decide

theorem witness_DecodeEncodeAgree : (Instr.illegal 0xFFFFFFFF).wellFormed = true := by decide

theorem witness_DigitTripleInverse :
    digits 0xFF = digits 0xFF ∧ ((⟨3, 7, 7⟩ : Triple).r ≤ 3 ∧ (⟨3, 7, 7⟩ : Triple).g ≤ 7 ∧ (⟨3, 7, 7⟩ : Triple).b ≤ 7) ∧
    4 ≤ (⟨4, 0, 0⟩ : Triple).r := by decide

theorem witness_AddOrSubtractRule : 6 < 7 ∧ 7 ≤ 7 ∧ (255 ≤ 255 ∧ 7 ≤ 7) := by decide

theorem witness_OctalReassembly :
    ((⟨3, 7, 7⟩ : Triple).r ≤ 3 ∧ (⟨3, 7, 7⟩ : Triple).g ≤ 7 ∧ (⟨3, 7, 7⟩ : Triple).b ≤ 7) ∧
    (⟨0, 8, 0⟩ : Triple).g > 7 ∧ 64 * (⟨4, 0, 0⟩ : Triple).r + 8 * (⟨4, 0, 0⟩ : Triple).g + (⟨4, 0, 0⟩ : Triple).b > 255 := by
  decide

theorem witness_CapacityIsTheExactProduct :
    board.imgDim.extractLsb' 0 16 = 0 ∧ ({ board with imgDim := 0x00640000 } : State).imgDim.extractLsb' 0 16 = 0 ∧
    ({ board with imgDim := 0xFFFFFFFF } : State).imgDim = 0xFFFFFFFF ∧
    ({ board with imgDim := 0x00010001 } : State).imgDim = 0x00010001 ∧ e1.imgDim = 0x00010002 := by decide

theorem witness_RasterOrderAndPayloadAssignment : 1 < e1.len.toNat ∧ e1.len.toNat ≤ 2 := by decide

/-- The largest differences of a byte, and lane R one more. -/
theorem witness_DecpxDecodesOrReports :
    (let d := differences (unpackPixel 0x00111107).colour (unpackPixel 0x000A0A0A).colour
     d.r = 3 ∧ d.g = 7 ∧ d.b = 7) ∧
    (let d := differences (unpackPixel 0x000A0A0E).colour (unpackPixel 0x000A0A0A).colour
     ¬(d.r ≤ 3 ∧ d.g ≤ 7 ∧ d.b ≤ 7)) := by decide

theorem witness_EncodeChecksCapacityFirst :
    let s : State := { e1 with len := 3, coverBase := 0xFFFFFFFF }
    (windowRead 0x018 s).toNat < s.len.toNat := by decide

theorem witness_FrameCommandsCheckRanges :
    (let s : State := { e1 with coverBase := 0xFF9 }
     s.len.toNat ≤ pixelCount s ∧ 4 * pixelCount s ≠ 0 ∧ s.memBytes < s.coverBase.toNat + 4 * pixelCount s) ∧
    (let s : State := { e1 with lockBase := 0xFF9 }
     s.len.toNat ≤ pixelCount s ∧ 4 * pixelCount s ≠ 0 ∧ s.memBytes < s.lockBase.toNat + 4 * pixelCount s) ∧
    (let s : State := { e1 with payloadBase := 0xFFF }
     s.len.toNat ≤ pixelCount s ∧ s.len.toNat ≠ 0 ∧ s.memBytes < s.payloadBase.toNat + s.len.toNat) ∧
    (let s : State := { f1 with lockBase := 0xFF9 }
     s.imgDim = s.keyDim ∧ 4 * pixelCount s ≠ 0 ∧ s.memBytes < s.lockBase.toNat + 4 * pixelCount s) ∧
    (let s : State := { f1 with keyBase := 0xFF9 }
     s.imgDim = s.keyDim ∧ 4 * pixelCount s ≠ 0 ∧ s.memBytes < s.keyBase.toNat + 4 * pixelCount s) ∧
    (let s : State := { f1 with outBase := 0xFFF }
     s.imgDim = s.keyDim ∧ pixelCount s ≠ 0 ∧ s.memBytes < s.outBase.toNat + pixelCount s) := by decide +kernel

/-- Apart, in place, and with the cover up against the end of the memory (E7). -/
theorem witness_EncodeWritesTheLockImage :
    encodeReady e1 = true ∧ 1 < pixelCount e1 ∧ (lockBuffer e1).holds 0x308 = false ∧
    encodeReady { e1 with lockBase := 0x100 } = true ∧ encodeReady { e1 with coverBase := 0xFF8 } = true := by
  decide +kernel

theorem witness_EncodeChangesEachLaneByItsDigit :
    ∃ t, exec .encode { e1 with len := 1 } = .next t ∧ t.err = .none ∧ 1 < pixelCount e1 ∧
      0 < ({ e1 with len := 1 } : State).len.toNat ∧ ({ e1 with len := 1 } : State).len.toNat ≤ 1 :=
  ⟨_, next_after (by decide +kernel), by decide +kernel⟩

theorem witness_EncodeInPlaceEqualsDisjoint :
    ∃ t u, exec .encode { e1 with lockBase := 0x100 } = .next t ∧ t.err = .none ∧
      exec .encode { e1 with lockBase := 0x300 } = .next u ∧ u.err = .none ∧
      ({ e1 with lockBase := 0x100 } : State).lockBase = e1.coverBase ∧ 0 < pixelCount e1 :=
  ⟨_, _, next_after (by decide +kernel), by decide +kernel, next_after (by decide +kernel), by decide +kernel⟩

/-- The same cover, with the payload of E1 and with another. -/
theorem witness_EncodeIsDeterministicAndInjective :
    ∃ t₁ t₂, exec .encode e1 = .next t₁ ∧ t₁.err = .none ∧ exec .encode { e1 with payloadBase := 0x201 } = .next t₂ ∧
      t₂.err = .none ∧ (∃ i, i < e1.len.toNat ∧ e1.mem.read (0x200 + i) ≠ e1.mem.read (0x201 + i)) ∧
      ∀ i, i < pixelCount e1 → payloadByte e1 i = payloadByte e1 i :=
  ⟨_, _, next_after (by decide +kernel), by decide +kernel, next_after (by decide +kernel), by decide +kernel,
    ⟨0, by decide +kernel⟩, fun _ _ => rfl⟩

/-- Both sides of each equivalence hold somewhere: a lock one byte into the cover, and an out up against the lock. -/
theorem witness_OverlapIsRefused :
    (let s : State := { e1 with lockBase := 0x101 }
     s.len.toNat ≤ pixelCount s ∧ encodeInRange s = true ∧ (lockBuffer s).holds 0x101 = true ∧
       (coverBuffer s).holds 0x101 = true ∧ s.lockBase ≠ s.coverBase ∧ runs (exec .encode s) = false) ∧
    (let s : State := { e1 with lockBase := 0x1FA }
     encodeInRange s = true ∧ (payloadBuffer s).holds 0x201 = true ∧ (lockBuffer s).holds 0x201 = true) ∧
    (let s : State := { f1 with outBase := 0x307 }
     s.imgDim = s.keyDim ∧ decodeInRange s = true ∧ (outBuffer s).holds 0x307 = true ∧
       (lockBuffer s).holds 0x307 = true ∧ runs (exec .decode s) = false) ∧
    runs (exec .decode { f1 with outBase := 0x308 }) = true := by decide +kernel

/-- Width alone, and height alone, with the same pixel count of zero, and S4. -/
theorem witness_DecodeChecksDimensionsFirst :
    (0x00020002 : Word).extractLsb' 0 16 ≠ (0x00040001 : Word).extractLsb' 0 16 ∧
    (0x00050000 : Word).extractLsb' 16 16 ≠ (0x00060000 : Word).extractLsb' 16 16 ∧
    (0x00050000 : Word).extractLsb' 0 16 = (0x00060000 : Word).extractLsb' 0 16 := by decide

theorem witness_DecodeRecoversTheFrame :
    decodeReady f1 = true ∧ ∀ i, i < pixelCount f1 →
      decPixel (f1.mem.readPixel (f1.lockBase.toNat + 4 * i)) (f1.mem.readPixel (f1.keyBase.toNat + 4 * i)) =
        .ok (if i = 0 then 0x07 else 0x78) := by decide +kernel

theorem witness_DecodeAbortsAtTheLowestMalformedPixel :
    decodeReady f11 = true ∧ 1 < pixelCount f11 ∧
    decPixel (f11.mem.readPixel (f11.lockBase.toNat + 4 * 1)) (f11.mem.readPixel (f11.keyBase.toNat + 4 * 1)) =
      .malformed ⟨0, 16, 0⟩ ∧
    ∀ j, j < 1 → decPixel (f11.mem.readPixel (f11.lockBase.toNat + 4 * j)) (f11.mem.readPixel (f11.keyBase.toNat + 4 * j)) =
      .ok 0x40 := by decide +kernel

/-- A memory that differs from f1's in an alpha byte of the lock. -/
theorem witness_DecodeIgnoresAlpha :
    ∃ t u, exec .decode f1 = .next t ∧ exec .decode { f1 with mem := f1.mem.write 0x303 0 } = .next u ∧ t.err = .none ∧
      f1.mem.write 0x303 0 ≠ f1.mem ∧
      ∀ i, i < 2 → ∀ k, k < 3 →
        f1.mem.read (0x300 + 4 * i + k) = (f1.mem.write 0x303 0).read (0x300 + 4 * i + k) ∧
        f1.mem.read (0x100 + 4 * i + k) = (f1.mem.write 0x303 0).read (0x100 + 4 * i + k) :=
  ⟨_, _, next_after (by decide +kernel), next_after (by decide +kernel), by decide +kernel⟩

/-- P1: the lock ENCODE left, decoded against the cover. -/
theorem witness_RoundTripRecoversThePayload :
    ∃ t, RoundTripSetup e1 t f1 ∧ e1.mem.read (e1.payloadBase.toNat + (e1.len.toNat - 1)) ≠ 0 :=
  ⟨_, ⟨next_after (by decide +kernel), by decide +kernel, by decide +kernel, by decide +kernel, by decide +kernel⟩,
    by decide +kernel⟩

/-- The empty payload, of the other clause. -/
theorem witness_RoundTripRecoversTheEmptyPayload :
    ∃ t, RoundTripSetup { board with len := 0 } t board ∧ ({ board with len := 0 } : State).len.toNat = 0 :=
  ⟨_, ⟨next_after (by decide +kernel), by decide +kernel, by decide +kernel, by decide +kernel, by decide +kernel⟩,
    by decide +kernel⟩

/-- A payload with a trailing zero, in one pixel. -/
theorem witness_RoundTripLosesTrailingZeros :
    ∃ s t u, RoundTripSetup s t u ∧ s.len.toNat = 1 ∧ ∀ i, i < s.len.toNat → s.mem.read (s.payloadBase.toNat + i) = 0 :=
  ⟨{ board with imgDim := 0x00010001, len := 1, payloadBase := 0x200, lockBase := 0x300 }, _,
    { board with
      imgDim := 0x00010001, keyDim := 0x00010001, len := 1, lockBase := 0x300, outBase := 0x400 },
    ⟨next_after (by decide +kernel), by decide +kernel, by decide +kernel, by decide +kernel, by decide +kernel⟩,
    by decide +kernel⟩

/-- A completion without an error, and the errors of each command. -/
theorem witness_Completions :
    runs (exec .nop board) = true ∧ runs (exec .digits board) = true ∧
    (after (exec .decpx { board with pixA := 4 })).err = .malformedPayload ∧
    (after (exec .decode f11)).err = .malformedPayload ∧
    (after (exec .decode { f11 with keyDim := 0 })).err = .dimensionMismatch ∧
    (after (exec .encode { e1 with len := 3 })).err = .capacityExceeded ∧
    (after (exec .encode { e1 with lockBase := 0xFF9 })).err = .rangeFault ∧
    (after (exec (.illegal 4) board)).err = .illegalCommand := by decide +kernel

theorem witness_CompletionWritesOnlyItsResults :
    ∃ t, exec .decpx { board with pixA := 4 } = .next t ∧ t.err ≠ .none ∧ Instr.decpx ≠ .decode :=
  ⟨_, next_after (by decide), by decide⟩

theorem witness_ErrorCodesAndTheirCommands : ∃ t, exec .encode { e1 with len := 3 } = .next t ∧ t.err = .capacityExceeded :=
  ⟨_, next_after (by decide +kernel), by decide +kernel⟩

theorem witness_ErrorsArePrecise :
    ∃ t, exec .decode f11 = .next t ∧ t.err = .malformedPayload ∧ (outBuffer f11).holds 0x304 = false :=
  ⟨_, next_after (by decide +kernel), by decide +kernel⟩

theorem witness_RetryGivesTheSameError : ∃ t, exec .decode f11 = .next t ∧ t.err ≠ .none :=
  ⟨_, next_after (by decide +kernel), by decide +kernel⟩

theorem witness_StepRunsTheLatchedCommand :
    (let s : State := { busyWith 0x00000010 e1 with sched := [.engine, .host] }
     s.phase = .busy ∧ decode s.latch = .encode ∧ s.sched = .engine :: [.host]) ∧
    ((busyWith 0x00000010 e1).phase = .busy ∧ (busyWith 0x00000010 e1).sched = []) := by decide

theorem witness_CmdWrites : board.phase = .idle ∧ (busyWith 0x00000001 board).phase = .busy := by decide

theorem witness_BusyGatedWrites :
    board.phase = .idle ∧ (busyWith 0x00000001 board).phase = .busy ∧
    (0x010 : Word) ∈ ([0x010, 0x014, 0x01C, 0x020, 0x024, 0x028, 0x02C, 0x030, 0x040, 0x044, 0x048] : List Word) ∧
    (0x048 : Word) ∈ ([0x010, 0x014, 0x01C, 0x020, 0x024, 0x028, 0x02C, 0x030, 0x040, 0x044, 0x048] : List Word) := by
  decide

/-- A read-only register, and the first and the last reserved slot. -/
theorem witness_WritesWithoutEffect :
    (0x04C : Word) ∈ ([0x000, 0x018, 0x034, 0x038, 0x03C, 0x04C] : List Word) ∧
    (0x050 ≤ (0x050 : Word).toNat ∧ (0x050 : Word).toNat ≤ 0x0FC ∧ (0x050 : Word).toNat % 4 = 0) ∧
    (0x050 ≤ (0x0FC : Word).toNat ∧ (0x0FC : Word).toNat ≤ 0x0FC ∧ (0x0FC : Word).toNat % 4 = 0) := by decide

theorem witness_StatusWriteClears :
    ∃ t, hostOp (.wr .word 0x008 0x00000002) board = .next t ∧ (0x00000002 : Word).getLsbD 1 = true :=
  ⟨_, next_after (by decide), by decide⟩

theorem witness_CtrlWriteSetsIeOrResets :
    (0xFFFFFFFD : Word).getLsbD 1 = false ∧ (0x00000002 : Word).getLsbD 1 = true ∧
    ∃ t, hostOp (.wr .word 0x004 0x00000002) board = .next t :=
  ⟨by decide, by decide, _, next_after (by decide)⟩

theorem witness_HostReadsReturnTheRegister :
    (0x050 ≤ (0x0FC : Word).toNat ∧ (0x0FC : Word).toNat ≤ 0x0FC ∧ (0x0FC : Word).toNat % 4 = 0) ∧
    ((0x04C : Word).toNat < 0x100 ∧ (0x04C : Word).toNat % 4 = 0) := by decide

/-- A half-word access, a misaligned one, and the first offset past the window. -/
theorem witness_UnsupportedAccessIsRefused :
    Width.half ≠ .word ∧ (0x002 : Word).toNat % 4 ≠ 0 ∧ 0x100 ≤ (0x100 : Word).toNat := by decide

/-- The first byte of the cover, the last of the payload and the last of the lock; the key and the out. -/
theorem witness_HostRaceIsRefused :
    (let s := busyWith 0x00000010 e1
     s.phase = .busy ∧ s.latch = 0x00000010 ∧ 0x307 < s.memBytes ∧ (coverBuffer s).holds 0x100 = true ∧
       (payloadBuffer s).holds 0x201 = true ∧ (lockBuffer s).holds 0x307 = true) ∧
    (let s := busyWith 0x00000011 f1
     s.phase = .busy ∧ s.latch = 0x00000011 ∧ 0x401 < s.memBytes ∧ (lockBuffer s).holds 0x300 = true ∧
       (keyBuffer s).holds 0x107 = true ∧ (outBuffer s).holds 0x401 = true) := by decide +kernel

/-- While idle at the last byte, and while busy at the first byte past the lock. -/
theorem witness_HostMemoryAccess :
    (0xFFF : Word).toNat < board.memBytes ∧ board.phase = .idle ∧
    (let s := busyWith 0x00000010 e1
     (0x308 : Word).toNat < s.memBytes ∧ (∀ x ∈ writeBuffers s, x.holds 0x308 = false) ∧
       ∀ x ∈ readBuffers s ++ writeBuffers s, x.holds 0x308 = false) := by decide +kernel

theorem witness_WaitPollsStatus : (busyWith 0 board).phase = .busy ∧ board.phase = .idle := by decide

theorem witness_InterruptFollowsDone :
    (∃ t, exec .nop { board with ie := true } = .next t ∧ ({ board with ie := true } : State).ie = true) ∧
    (∃ t, hostOp (.wr .word 0x008 0x00000002) { board with done := true } = .next t) ∧
    (∃ t, board.phase = .idle ∧ hostOp (.wr .word 0x00C 0x00000000) board = .next t) ∧
    (∃ t, resetBlock (busyWith 0x00000010 e1) = .next t) ∧
    (∃ t, ({ board with done := true } : State).done = true ∧
      hostOp (.wr .word 0x004 0x00000001) { board with done := true } = .next t) ∧
    ∃ t, hostOp (.wr .word 0x004 0x00000000) board = .next t :=
  ⟨⟨_, next_after (by decide), rfl⟩, ⟨_, next_after (by decide)⟩, ⟨_, by decide, next_after (by decide)⟩,
    ⟨_, next_after (by decide +kernel)⟩, ⟨_, rfl, next_after (by decide)⟩, _, next_after (by decide)⟩

theorem witness_ResetFromAnyState :
    board.phase = .idle ∧ latchedBreach (busyWith 0x00000010 e1) = false ∧
    ({ busyWith 0x00000010 e1 with sched := [.reset] } : State).sched = .reset :: [] := by decide +kernel

theorem witness_ResetKeepsMemoryOutsideTheWriteRange :
    (∃ t, resetBlock e1 = .next t ∧ e1.phase = .idle) ∧
    (∃ t, resetBlock (busyWith 0x00000001 e1) = .next t ∧ running (busyWith 0x00000001 e1) = .digits) ∧
    (∃ t, resetBlock (busyWith 0x00000010 e1) = .next t ∧ running (busyWith 0x00000010 e1) = .encode ∧
      (lockBuffer e1).holds 0x2FF = false) ∧
    ∃ t, resetBlock (busyWith 0x00000011 f1) = .next t ∧ running (busyWith 0x00000011 f1) = .decode ∧
      (outBuffer f1).holds 0x402 = false :=
  ⟨⟨_, next_after (by decide +kernel), by decide +kernel⟩, ⟨_, next_after (by decide +kernel), by decide +kernel⟩,
    ⟨_, next_after (by decide +kernel), by decide +kernel⟩, _, next_after (by decide +kernel), by decide +kernel⟩

/-- Busy, with an invariant that holds and a completion that is answered. -/
theorem witness_EveryStepKeepsTheInvariant :
    (busyWith 0x00000010 e1).Inv ∧ ∃ t, step (busyWith 0x00000010 e1) = .next t :=
  ⟨⟨by decide +kernel, by decide +kernel, by decide +kernel, by decide +kernel, by decide +kernel, by decide +kernel,
    by decide +kernel⟩, _, next_after (by decide +kernel)⟩

/-- The host starts a command; the engine ends it. -/
theorem witness_BusyRisesAndFallsOnlyByCommands :
    (let s : State := { board with script := Script.cmd .digits }
     runs (step s) = true ∧ s.phase = .idle ∧ (after (step s)).phase = .busy) ∧
    (let s := busyWith 0x00000001 board
     runs (step s) = true ∧ s.phase = .busy ∧ (after (step s)).phase = .idle) := by decide

/-- DONE rises with a completion and falls with an acknowledgement. -/
theorem witness_DoneRisesOnlyByCompletion :
    (let s := busyWith 0x00000001 board
     runs (step s) = true ∧ s.done = false ∧ (after (step s)).done = true) ∧
    (let s : State := { board with done := true, script := Script.ack }
     runs (step s) = true ∧ s.done = true ∧ (after (step s)).done = false) := by decide

/-- OVR rises with a write while busy and falls with its clearing. -/
theorem witness_OverrunIsSticky :
    (let s : State := { busyWith 0x00000001 board with sched := [.host], script := Script.wr .len 5 }
     runs (step s) = true ∧ s.ovr = false ∧ (after (step s)).ovr = true) ∧
    (let s : State := { board with ovr := true, script := Script.clrovr }
     runs (step s) = true ∧ s.ovr = true ∧ (after (step s)).ovr = false) := by decide

/-- A host write and a completion that each change a byte. -/
theorem witness_MemoryChangesOnlyByItsWriters :
    (let s : State := { board with script := [.mwr 0xFFF 1] }
     runs (step s) = true ∧ (after (step s)).mem.read 0xFFF ≠ s.mem.read 0xFFF) ∧
    (let s := busyWith 0x00000010 e1
     runs (step s) = true ∧ (after (step s)).mem.read 0x307 ≠ s.mem.read 0x307) := by decide +kernel

/-- Busy before and after a step of the host. -/
theorem witness_OperandsAndResultsStayWhileBusy :
    let s : State := { busyWith 0x00000001 board with sched := [.host], script := Script.wr .len 5 }
    runs (step s) = true ∧ s.phase = .busy ∧ (after (step s)).phase = .busy ∧ s.done = false := by decide

/-- A hardware reset with a frame running and bytes in memory, and a soft reset: both are answered. -/
theorem witness_CommandsRunStraightAfterReset :
    (∃ t, resetBlock (busyWith 0x00000010 e1) = .next t) ∧ (∃ t, resetBlock e1 = .next t ∧ t.mem ≠ []) ∧
    hostOp (.wr .word 0x004 0x00000002) e1 = resetBlock e1 :=
  ⟨⟨_, next_after (by decide +kernel)⟩, ⟨_, next_after (by decide +kernel), by decide +kernel⟩, rfl⟩

/-- The host's turn, and then the completion: no reset comes, and every step is answered. -/
theorem witness_CompletionIsEventuallyTaken :
    let s : State := { busyWith 0x00000001 board with sched := [.host] }
    s.phase = .busy ∧ runs (step s) = true ∧ runs (step (after (step s))) = true ∧
    ∀ (k : Nat) (t : State), k ≤ s.sched.length → Sys2Proof.core.run k s = .next t → t.phase = .busy → ¬nextResets t := by
  refine ⟨by decide, by decide, by decide, fun k t hk h _ => ?_⟩
  have quiet : nextAction t = .nothing ∨ nextAction t = .completion := by
    rcases k with _ | _ | k
    · cases h
      exact .inl (by decide)
    · rw [core_run_of_next 0 (next_after (by decide))] at h
      cases h
      exact .inr (by decide)
    · exact absurd hk (by simp)
  rintro (hr | ⟨v, hr, _⟩) <;> rcases quiet with q | q <;> exact absurd (q.symm.trans hr) (by simp)

end Sys2Proof.Tests
end

section
/-! PROOFS. The register window: what a read of each slot returns (spec/10_state.md R16 to R20). -/

namespace Sys2Proof.Machine

/-! ### Reading at an offset -/

/-- A read at a register's offset is the read of that register. -/
@[simp] theorem windowRead_offset (r : Reg) (s : State) : windowRead r.offset s = regRead r s := by
  simp [windowRead]

/-- RES, at 0x04C, is the last defined register (R16). -/
theorem offset_toNat_le (r : Reg) : r.offset.toNat ≤ 0x04C := by
  cases r <;> decide

theorem regAt_eq_none_of_reserved {off : Word} (h : 0x050 ≤ off.toNat) : regAt off = none := by
  cases hr : regAt off with
  | none => rfl
  | some r =>
    have hle := offset_toNat_le r
    rw [← offset_of_regAt hr] at hle
    omega

theorem windowRead_reserved {off : Word} (h : 0x050 ≤ off.toNat) (s : State) : windowRead off s = 0 := by
  simp [windowRead, regAt_eq_none_of_reserved h]

theorem supported_word_iff {off : Word} : supported .word off = true ↔ off.toNat < 0x100 ∧ off.toNat % 4 = 0 := by
  simp [supported]

/-- A supported read changes the value the host has, nothing else (R113; log 16). -/
theorem hostOp_rd_word {off : Word} (hlt : off.toNat < 0x100) (hal : off.toNat % 4 = 0) (s : State) :
    hostOp (.rd .word off) s = .next { s with lastRead := windowRead off s } :=
  if_pos (supported_word_iff.2 ⟨hlt, hal⟩)

/-- BYTE_IN as read: the byte under 24 zeros (R37). -/
theorem regRead_byteIn (s : State) : regRead .byteIn s = 0#24 ++ s.byteIn :=
  BitVec.setWidth_eq_append (by decide)

/-- Settles O41: each defined slot by `windowRead_offset`, the reserved ones because no register has such an offset. -/
theorem hostReadsReturnTheRegister : Obligations.HostReadsReturnTheRegister := by
  refine ⟨fun s => ?_, fun s off hlo _ _ => windowRead_reserved hlo s, fun s off hlt hal => hostOp_rd_word hlt hal s⟩
  exact ⟨windowRead_offset .id s, windowRead_offset .cmd s, windowRead_offset .imgDim s, windowRead_offset .keyDim s,
    windowRead_offset .len s, windowRead_offset .coverBase s, windowRead_offset .payloadBase s,
    windowRead_offset .lockBase s, windowRead_offset .keyBase s, windowRead_offset .outBase s,
    windowRead_offset .outLen s, windowRead_offset .errIdx s, windowRead_offset .errInfo s,
    windowRead_offset .pixA s, windowRead_offset .pixB s,
    (windowRead_offset .byteIn s).trans (regRead_byteIn s), windowRead_offset .res s⟩

/-! ### The fields of STATUS and CTRL -/

theorem windowRead_status (s : State) : windowRead 0x008 s = statusWord s := windowRead_offset .status s

theorem windowRead_ctrl (s : State) : windowRead 0x004 s = ctrlWord s := windowRead_offset .ctrl s

/-- STATUS as its three low flags put under ERR and the reserved bit 3, one bit at a time (R20). -/
theorem statusWord_eq_concat (s : State) : statusWord s =
    (((0#25 ++ s.err.code ++ 0#1).concat s.ovr).concat s.done).concat s.busy := rfl

theorem statusWord_getLsbD_zero (s : State) : (statusWord s).getLsbD 0 = s.busy := by
  rw [statusWord_eq_concat, BitVec.getLsbD_concat_zero]

theorem statusWord_getLsbD_one (s : State) : (statusWord s).getLsbD 1 = s.done := by
  rw [statusWord_eq_concat, BitVec.getLsbD_concat_succ, BitVec.getLsbD_concat_zero]

theorem statusWord_getLsbD_two (s : State) : (statusWord s).getLsbD 2 = s.ovr := by
  rw [statusWord_eq_concat, BitVec.getLsbD_concat_succ, BitVec.getLsbD_concat_succ, BitVec.getLsbD_concat_zero]

/-- Above the three flags, STATUS is ERR with the reserved bit below it and zeros above it (R20). -/
theorem statusWord_getLsbD_add_three (s : State) (k : Nat) :
    (statusWord s).getLsbD (k + 3) = (0#25 ++ s.err.code ++ 0#1).getLsbD k := by
  rw [statusWord_eq_concat]
  simp only [BitVec.getLsbD_concat_succ]

theorem statusWord_getLsbD_three (s : State) : (statusWord s).getLsbD 3 = false := by
  rw [statusWord_getLsbD_add_three s 0, BitVec.getLsbD_append]
  simp

/-- The field of STATUS at bit 4 + `k` is the field of ERR under the zeros at bit `k`. -/
theorem statusWord_extract_above (s : State) (k n : Nat) :
    (statusWord s).extractLsb' (4 + k) n = (0#25 ++ s.err.code).extractLsb' k n := by
  ext i hi
  have hbit : 4 + k + i = k + i + 1 + 3 := by omega
  rw [BitVec.getElem_extractLsb', BitVec.getElem_extractLsb', hbit, statusWord_getLsbD_add_three, BitVec.getLsbD_append]
  simp

theorem statusWord_err (s : State) : (statusWord s).extractLsb' 4 3 = s.err.code := by
  rw [statusWord_extract_above s 0 3, BitVec.extractLsb'_append_eq_right]

theorem statusWord_reserved (s : State) : (statusWord s).extractLsb' 7 25 = 0 := by
  rw [statusWord_extract_above s 3 25, BitVec.extractLsb'_append_eq_left]
  rfl

theorem ctrlWord_getLsbD_zero (s : State) : (ctrlWord s).getLsbD 0 = s.ie := BitVec.getLsbD_concat_zero

theorem ctrlWord_reserved (s : State) : (ctrlWord s).extractLsb' 1 31 = 0 := BitVec.extractLsb'_append_eq_left

/-- Settles O42: field by field, from the layout of the two words. -/
theorem statusAndCtrlLayout : Obligations.StatusAndCtrlLayout := by
  intro s
  rw [windowRead_status, windowRead_ctrl]
  exact ⟨statusWord_getLsbD_zero s, statusWord_getLsbD_one s, statusWord_getLsbD_two s, statusWord_getLsbD_three s,
    statusWord_err s, statusWord_reserved s, ctrlWord_getLsbD_zero s, ctrlWord_reserved s⟩

/-! ### The window after reset -/

/-- Every register but ID reads 0 after reset (R16). -/
theorem regRead_reset {r : Reg} (h : r ≠ .id) : regRead r State.reset = 0 := by
  cases r with
  | id => exact absurd rfl h
  | ctrl | status | cmd | imgDim | keyDim | capacity | len | coverBase | payloadBase | lockBase | keyBase | outBase
  | outLen | errIdx | errInfo | pixA | pixB | byteIn | res => rfl

/-- Settles O48: the listed offsets are those of every register but ID. -/
theorem resetValues : Obligations.ResetValues := by
  refine ⟨windowRead_offset .id _, fun off hoff => ?_, rfl, rfl⟩
  change off ∈ allRegs.tail.map Reg.offset at hoff
  obtain ⟨r, hr, rfl⟩ := List.mem_map.1 hoff
  rw [windowRead_offset]
  refine regRead_reset ?_
  rintro rfl
  exact absurd hr (by decide)

end Sys2Proof.Machine
end

section
/-! PROOFS. What a completion step does, said once for every command: the cases of an answered `exec`, and the frame they
share (spec/43_control.md R115, spec/10_state.md R22, R32 to R38). -/

namespace Sys2Proof.Machine

/-! ### The frame is visited in raster order -/

theorem raster_eq_range (w h : Nat) : raster w h = List.range (w * h) := by
  induction h with
  | zero => rfl
  | succ h ih =>
    have hrow : raster w (h + 1) = raster w h ++ (List.range w).map fun x => x + h * w := by
      simp [raster, List.range_succ]
    rw [hrow, ih, Nat.mul_succ, List.range_add]
    simp only [Nat.add_comm, Nat.mul_comm]

theorem frameIndices_eq_range (s : State) : frameIndices s = List.range (pixelCount s) := raster_eq_range _ _

/-! ### The pixel loops over the whole frame -/

/-- What the pixel loop of ENCODE leaves (R88). -/
def encodeRun (s : State) : State := encodeLoop (List.range (pixelCount s)) s

/-- What the pixel loop of DECODE leaves, and the malformed pixel it stopped at (R102, R107). -/
def decodeRun (s : State) : State × Option (Nat × Triple) :=
  decodeLoop (List.range (pixelCount s)) { s with lnz := 0 }

theorem encodeRun_frame (s : State) : ∃ x m, encodeRun s = { s with idx := x, mem := m } :=
  ⟨_, _, encodeLoop_eq _ s⟩

theorem decodeRun_frame (s : State) : ∃ x z m, (decodeRun s).1 = { s with idx := x, lnz := z, mem := m } :=
  ⟨_, _, _, decodeLoop_eq _ _⟩

/-! ### The cases of a completion -/

/-- `Completes i s t`: the completion of `i` in `s` leaves `t`, one case for each way a command can end. -/
inductive Completes : Instr → State → State → Prop where
  | nop (s : State) : Completes .nop s (finish .none 0 0 s)
  | digits (s : State) : Completes .digits s (finish .none 0 0 { s with res := packTriple (Machine.digits s.byteIn) })
  | encpx (s : State) :
    Completes .encpx s (finish .none 0 0 { s with res := packPixel (encPixel (unpackPixel s.pixA) s.byteIn) })
  | decpx {s : State} {v : Byte} (hv : decPixel (unpackPixel s.pixA) (unpackPixel s.pixB) = .ok v) :
    Completes .decpx s (finish .none 0 0 { s with res := v.setWidth 32 })
  | decpxMalformed {s : State} {d : Triple} (hd : decPixel (unpackPixel s.pixA) (unpackPixel s.pixB) = .malformed d) :
    Completes .decpx s (finish .malformedPayload 0 (packTriple d) s)
  | encodeFails {s : State} {e : ErrCode} (he : e = .capacityExceeded ∨ e = .rangeFault) :
    Completes .encode s (finish e 0 0 s)
  | encode {s : State} (hr : encodeReady s = true) : Completes .encode s (finish .none 0 0 (encodeRun s))
  | decodeFails {s : State} {e : ErrCode} (he : e = .dimensionMismatch ∨ e = .rangeFault) :
    Completes .decode s (finish e 0 0 { s with outLen := 0 })
  | decode {s : State} (hr : decodeReady s = true) (hn : (decodeRun s).2 = none) :
    Completes .decode s (finish .none 0 0 { (decodeRun s).1 with outLen := (decodeRun s).1.lnz })
  | decodeMalformed {s : State} {i : Nat} {d : Triple} (hr : decodeReady s = true) (hd : (decodeRun s).2 = some (i, d)) :
    Completes .decode s (finish .malformedPayload (BitVec.ofNat 32 i) (packTriple d)
      (freeBuffer (outBuffer s) { (decodeRun s).1 with outLen := 0 }))
  | illegal (w : Word) (s : State) : Completes (.illegal w) s (finish .illegalCommand 0 0 s)

theorem completes_execEncode {s t : State} (h : execEncode s = .next t) : Completes .encode s t := by
  rcases execEncode_cases s with ⟨-, he⟩ | ⟨-, -, he⟩ | ⟨-, -, -, he⟩ | ⟨hr, he⟩ <;> rw [he] at h <;> cases h
  · exact .encodeFails (.inl rfl)
  · exact .encodeFails (.inr rfl)
  · rw [frameIndices_eq_range]
    exact .encode hr

theorem outBuffer_decodeRun (s : State) : outBuffer (decodeRun s).1 = outBuffer s := by
  obtain ⟨x, z, m, hrun⟩ := decodeRun_frame s
  rw [hrun]
  rfl

/-- How a DECODE that reached its pixel loop ends (R102, R107). -/
theorem completes_decodeEnd {s : State} (hr : decodeReady s = true) : Completes .decode s (decodeEnd (decodeRun s)) := by
  have hbuf := outBuffer_decodeRun s
  rcases hrun : decodeRun s with ⟨u, _ | ⟨i, d⟩⟩
  · have := Completes.decode hr (by rw [hrun])
    rwa [hrun] at this
  · have := Completes.decodeMalformed hr (i := i) (d := d) (by rw [hrun])
    rw [← hbuf, hrun] at this
    exact this

theorem completes_execDecode {s t : State} (h : execDecode s = .next t) : Completes .decode s t := by
  rcases execDecode_cases s with ⟨-, he⟩ | ⟨-, -, he⟩ | ⟨-, -, -, he⟩ | ⟨hr, he⟩ <;> rw [he] at h <;> cases h
  · exact .decodeFails (.inl rfl)
  · exact .decodeFails (.inr rfl)
  · rw [frameIndices_eq_range]
    exact completes_decodeEnd hr

theorem completes_execDecpx {s t : State} (h : execDecpx s = .next t) : Completes .decpx s t := by
  rcases execDecpx_cases s with ⟨v, hv, he⟩ | ⟨d, hd, he⟩ <;> rw [he] at h <;> cases h
  · exact .decpx hv
  · exact .decpxMalformed hd

/-- A completion that is answered ends in one of the ways of `Completes`. -/
theorem completes_of_exec {i : Instr} {s t : State} (h : exec i s = .next t) : Completes i s t := by
  cases i with
  | nop => cases h; exact .nop s
  | digits => cases h; exact .digits s
  | encpx => cases h; exact .encpx s
  | decpx => exact completes_execDecpx h
  | encode => exact completes_execEncode h
  | decode => exact completes_execDecode h
  | illegal w => cases h; exact .illegal w s

/-! ### What a completion may write -/

namespace Completes

variable {i : Instr} {s t : State}

/-- No completion writes an operand, a control register, the latch, the memory size or the host's side. -/
theorem frame (h : Completes i s t) : t = { s with
    res := t.res, outLen := t.outLen, mem := t.mem, err := t.err, errIdx := t.errIdx, errInfo := t.errInfo
    idx := t.idx, lnz := t.lnz, draws := t.draws, phase := .idle, done := true } := by
  cases h with
  | nop | digits | encpx | decpx | decpxMalformed | encodeFails | decodeFails | illegal => rfl
  | encode =>
    obtain ⟨x, m, hrun⟩ := encodeRun_frame s
    rw [hrun]
    rfl
  | decode | decodeMalformed =>
    obtain ⟨x, z, m, hrun⟩ := decodeRun_frame s
    rw [hrun]
    rfl

theorem res_eq (h : Completes i s t) (hdig : i ≠ .digits) (henc : i ≠ .encpx) (hdec : i ≠ .decpx) :
    t.res = s.res := by
  cases h with
  | digits => exact absurd rfl hdig
  | encpx => exact absurd rfl henc
  | decpx | decpxMalformed => exact absurd rfl hdec
  | nop | encodeFails | decodeFails | illegal => rfl
  | encode => exact encodeLoop_res _ _
  | decode | decodeMalformed => exact decodeLoop_res _ _

theorem res_eq_of_decpx_failed (h : Completes .decpx s t) (herr : t.err ≠ .none) : t.res = s.res := by
  cases h with
  | decpx => exact absurd rfl herr
  | decpxMalformed => rfl

theorem outLen_eq (h : Completes i s t) (hdec : i ≠ .decode) : t.outLen = s.outLen := by
  cases h with
  | decodeFails | decode | decodeMalformed => exact absurd rfl hdec
  | nop | digits | encpx | decpx | decpxMalformed | encodeFails | illegal => rfl
  | encode => exact encodeLoop_outLen _ _

theorem outLen_eq_zero_of_decode_failed (h : Completes .decode s t) (herr : t.err ≠ .none) : t.outLen = 0 := by
  cases h with
  | decode => exact absurd rfl herr
  | decodeFails | decodeMalformed => rfl

theorem mem_eq (h : Completes i s t) (henc : i ≠ .encode) (hdec : i ≠ .decode) : t.mem = s.mem := by
  cases h with
  | encodeFails | encode => exact absurd rfl henc
  | decodeFails | decode | decodeMalformed => exact absurd rfl hdec
  | nop | digits | encpx | decpx | decpxMalformed | illegal => rfl

theorem records_zero (h : Completes i s t) (herr : t.err ≠ .malformedPayload) : t.errIdx = 0 ∧ t.errInfo = 0 := by
  cases h with
  | decpxMalformed | decodeMalformed => exact absurd rfl herr
  | nop | digits | encpx | decpx | encodeFails | encode | decodeFails | decode | illegal => exact ⟨rfl, rfl⟩

theorem errIdx_eq_zero_of_decpx (h : Completes .decpx s t) : t.errIdx = 0 := by
  cases h with
  | decpx | decpxMalformed => rfl

end Completes

/-- Settles O29: each clause from the cases of a completion. -/
theorem completionWritesOnlyItsResults : Obligations.CompletionWritesOnlyItsResults := by
  intro i s t hexec
  have h := completes_of_exec hexec
  refine ⟨h.frame, h.res_eq, ?_, h.outLen_eq, ?_, h.mem_eq, h.records_zero, ?_⟩
  · rintro rfl
    exact h.res_eq_of_decpx_failed
  · rintro rfl
    exact h.outLen_eq_zero_of_decode_failed
  · rintro rfl
    exact h.errIdx_eq_zero_of_decpx

end Sys2Proof.Machine
end

section
/-! PROOFS. What one step does, said once (spec/43_control.md R113 to R120), and the reset from any state
(spec/70_reset_and_hazards.md R152, R153). -/

namespace Sys2Proof.Machine

/-! ### The action of a step -/

/-- The effect of an action on a state whose turn, and whose host operation, are already taken off. -/
def Action.effect : Action → State → Host.Outcome State Fault Refusal
  | .host op, s => hostOp op s
  | .completion, s => exec (running s) s
  | .reset, s => resetBlock s
  | .nothing, s => .next s

theorem sched_tail_of_nil {s : State} (h : s.sched = []) : { s with sched := s.sched.tail } = s := by
  rw [h, List.tail_nil, ← h]

theorem turnTaken_of_not_host {s : State} (h : ∀ op, nextAction s ≠ .host op) :
    turnTaken s = { s with sched := s.sched.tail } := by
  unfold turnTaken
  split
  · next op hop => exact absurd hop (h op)
  · rfl
  · rfl
  · rfl

/-- Where the host moves, the turn is the first operation of its script, or nothing. -/
theorem hostTurn_eq_effect {s : State} (h : nextAction s = hostAction s) :
    hostTurn { s with sched := s.sched.tail } = (nextAction s).effect (turnTaken s) := by
  cases hscr : s.script with
  | nil =>
    have hact : nextAction s = .nothing := by rw [h, hostAction, hscr]
    rw [turnTaken_of_not_host (by simp [hact]), hact]
    simp [hostTurn, hscr, Action.effect]
  | cons op ops =>
    have hact : nextAction s = .host op := by rw [h, hostAction, hscr]
    simp [hostTurn, turnTaken, hact, hscr, Action.effect]

/-- A step is the effect of its action (R113). -/
theorem step_eq_effect (s : State) : step s = (nextAction s).effect (turnTaken s) := by
  cases hs : s.sched with
  | nil =>
    have hself := sched_tail_of_nil hs
    rcases phase_cases s with hp | hp
    · have hact : nextAction s = hostAction s := by simp [nextAction, hs, State.busy, hp]
      rw [← hostTurn_eq_effect hact, hself]
      simp [step, hs, defaultTurn, hp]
    · have hact : nextAction s = .completion := by simp [nextAction, hs, State.busy, hp]
      rw [turnTaken_of_not_host (by simp [hact]), hself, hact]
      simp [step, hs, defaultTurn, hp, Action.effect]
  | cons turn turns =>
    have htail : step s = takeTurn turn { s with sched := s.sched.tail } := by simp [step, hs]
    cases turn with
    | host =>
      have hact : nextAction s = hostAction s := by simp [nextAction, hs]
      rw [htail, ← hostTurn_eq_effect hact]
      rfl
    | reset =>
      have hact : nextAction s = .reset := by simp [nextAction, hs]
      rw [htail, turnTaken_of_not_host (by simp [hact]), hact]
      rfl
    | engine =>
      rcases phase_cases s with hp | hp
      · have hact : nextAction s = .nothing := by simp [nextAction, hs, State.busy, hp]
        rw [htail, turnTaken_of_not_host (by simp [hact]), hact]
        simp [takeTurn, engineTurn, hp, Action.effect]
      · have hact : nextAction s = .completion := by simp [nextAction, hs, State.busy, hp]
        rw [htail, turnTaken_of_not_host (by simp [hact]), hact]
        simp [takeTurn, engineTurn, hp, Action.effect]

@[simp] theorem turnTaken_phase (s : State) : (turnTaken s).phase = s.phase := by rw [turnTaken_eq]
@[simp] theorem turnTaken_done (s : State) : (turnTaken s).done = s.done := by rw [turnTaken_eq]
@[simp] theorem turnTaken_ovr (s : State) : (turnTaken s).ovr = s.ovr := by rw [turnTaken_eq]
@[simp] theorem turnTaken_latch (s : State) : (turnTaken s).latch = s.latch := by rw [turnTaken_eq]
@[simp] theorem running_turnTaken (s : State) : running (turnTaken s) = running s := by simp [running]

/-- What a step that is answered did. -/
theorem step_cases {s t : State} (h : step s = .next t) :
    (∃ op, nextAction s = .host op ∧ hostOp op (turnTaken s) = .next t) ∨
    (nextAction s = .completion ∧ exec (running s) (turnTaken s) = .next t) ∨
    (nextAction s = .reset ∧ resetBlock (turnTaken s) = .next t) ∨
    (nextAction s = .nothing ∧ t = turnTaken s) := by
  rw [step_eq_effect] at h
  cases hact : nextAction s with
  | host op =>
    rw [hact] at h
    exact .inl ⟨op, rfl, h⟩
  | completion =>
    rw [hact, Action.effect, running_turnTaken] at h
    exact .inr (.inl ⟨rfl, h⟩)
  | reset =>
    rw [hact] at h
    exact .inr (.inr (.inl ⟨rfl, h⟩))
  | nothing =>
    rw [hact] at h
    exact .inr (.inr (.inr ⟨rfl, (Host.Outcome.next.inj h).symm⟩))

/-! ### The effect of a host operation -/

/-- The registers a write of which is lost while BUSY (R116, R117). -/
def busyGated : List Reg :=
  [.cmd, .imgDim, .keyDim, .len, .coverBase, .payloadBase, .lockBase, .keyBase, .outBase, .pixA, .pixB, .byteIn]

/-- Every answered reset leaves the reset values over what the abandoned command left (R152 to R154). -/
theorem eq_of_resetBlock {s t : State} (h : resetBlock s = .next t) : t = blockReset (abandon s) := by
  rcases resetBlock_cases s with ⟨-, -, he⟩ | ⟨-, he⟩ <;> rw [he] at h <;> cases h
  rfl

/-- Only a busy-gated register raises OVR. -/
theorem mem_busyGated_of_overrun {r : Reg} {v : Word} {s : State} (h : regWrite r v s = .next (overrun s))
    (hovr : s.ovr = false) : r ∈ busyGated := by
  have hne : ∀ u : State, u.ovr = false → overrun s ≠ u := by
    rintro u hu rfl
    exact Bool.noConfusion hu
  cases r with
  | cmd | imgDim | keyDim | len | coverBase | payloadBase | lockBase | keyBase | outBase | pixA | pixB | byteIn => decide
  | id | capacity | outLen | errIdx | errInfo | res => exact absurd (Host.Outcome.next.inj h).symm (hne _ hovr)
  | status => exact absurd (Host.Outcome.next.inj h).symm (hne _ (by simp [hovr]))
  | ctrl =>
    simp only [regWrite, writeCtrl] at h
    split at h
    · exact absurd (eq_of_resetBlock h) (hne _ rfl)
    · exact absurd (Host.Outcome.next.inj h).symm (hne _ hovr)

/-- `HostEffect op s t`: the host operation `op` in `s` leaves `t`, one case for each effect there is. -/
inductive HostEffect : HostOp → State → State → Prop where
  /-- A read, a poll, or a write that is ignored. -/
  | view {op : HostOp} {s t : State} (ht : t = { s with lastRead := t.lastRead, script := t.script }) :
    HostEffect op s t
  | store {a : Word} (v : Byte) {s : State} (ha : a.toNat < s.memBytes) :
    HostEffect (.mwr a v) s { s with mem := s.mem.write a.toNat v }
  | softReset {v : Word} {s t : State} (hv : v.getLsbD 1 = true) (hr : resetBlock s = .next t) :
    HostEffect (.wr .word Reg.ctrl.offset v) s t
  | setIe (v : Word) (s : State) : HostEffect (.wr .word Reg.ctrl.offset v) s { s with ie := v.getLsbD 0 }
  | clear (v : Word) (s : State) : HostEffect (.wr .word Reg.status.offset v) s (clearStatus v s)
  | accept (w : Word) {s : State} (hp : s.phase = .idle) :
    HostEffect (.wr .word Reg.cmd.offset w) s (Machine.accept w s)
  | lost {r : Reg} (v : Word) {s : State} (hp : s.phase = .busy) (hr : s.ovr = false → r ∈ busyGated) :
    HostEffect (.wr .word r.offset v) s (overrun s)
  | operand {op : HostOp} {s t : State} (hp : s.phase = .idle) (ht : t =
      { s with imgDim := t.imgDim, keyDim := t.keyDim, len := t.len, coverBase := t.coverBase,
               payloadBase := t.payloadBase, lockBase := t.lockBase, keyBase := t.keyBase, outBase := t.outBase,
               pixA := t.pixA, pixB := t.pixB, byteIn := t.byteIn }) :
    HostEffect op s t

theorem hostEffect_of_regWrite {r : Reg} {v : Word} {s t : State} (h : regWrite r v s = .next t) :
    HostEffect (.wr .word r.offset v) s t := by
  rcases regWrite_cases h with
    rfl | ⟨rfl, hv, hr⟩ | ⟨rfl, -, rfl⟩ | ⟨rfl, rfl⟩ | ⟨rfl, hp, rfl⟩ | ⟨hp, rfl⟩ | ⟨hp, ht⟩
  · exact .view rfl
  · exact .softReset hv hr
  · exact .setIe v s
  · exact .clear v s
  · exact .accept v hp
  · exact .lost v hp (mem_busyGated_of_overrun h)
  · exact .operand hp ht

/-- A host operation that is answered has one of the effects of `HostEffect`. -/
theorem hostEffect_of_hostOp {op : HostOp} {s t : State} (h : hostOp op s = .next t) : HostEffect op s t := by
  rcases hostOp_cases_next h with ⟨x, rfl⟩ | ⟨-, ht⟩ | ⟨a, v, rfl, ha, rfl⟩ | ⟨off, v, r, rfl, rfl, hw⟩ | ⟨off, v, -, rfl⟩
  · exact .view rfl
  · exact .view ht
  · exact .store v ha
  · exact hostEffect_of_regWrite hw
  · exact .view rfl

/-! ### DONE -/

theorem Completes.done_eq {i : Instr} {s t : State} (h : Completes i s t) : t.done = true := by rw [h.frame]

theorem Completes.ovr_eq {i : Instr} {s t : State} (h : Completes i s t) : t.ovr = s.ovr := by rw [h.frame]

/-- What a host operation does to DONE: nothing, or one of its three clearings (R143). -/
theorem HostEffect.done_cases {op : HostOp} {s t : State} (h : HostEffect op s t) :
    t.done = s.done ∨ t.done = false ∧
      ((∃ v : Word, op = .wr .word Reg.status.offset v ∧ v.getLsbD 1 = true) ∨
       (∃ v : Word, op = .wr .word Reg.ctrl.offset v ∧ v.getLsbD 1 = true) ∨
       (s.phase = .idle ∧ ∃ w : Word, op = .wr .word Reg.cmd.offset w)) := by
  cases h with
  | view ht | operand _ ht => exact .inl (by rw [ht])
  | store | setIe | lost => exact .inl rfl
  | softReset hv hr => exact .inr ⟨by rw [eq_of_resetBlock hr]; rfl, .inr (.inl ⟨_, rfl, hv⟩)⟩
  | accept w hp => exact .inr ⟨rfl, .inr (.inr ⟨hp, w, rfl⟩)⟩
  | clear v =>
    cases hv : v.getLsbD 1 with
    | false => exact .inl (by rw [clearStatus_done, hv]; simp)
    | true => exact .inr ⟨by rw [clearStatus_done, hv]; simp, .inl ⟨v, rfl, hv⟩⟩

/-- Settles O55, from what the action of the step does to DONE. -/
theorem doneRisesOnlyByCompletion : Obligations.DoneRisesOnlyByCompletion := by
  intro s t hstep
  rcases step_cases hstep with ⟨op, hact, hop⟩ | ⟨hact, hexec⟩ | ⟨hact, hreset⟩ | ⟨hact, rfl⟩
  · have hdone := (hostEffect_of_hostOp hop).done_cases
    rw [turnTaken_done, turnTaken_phase] at hdone
    rcases hdone with hsame | ⟨hfalse, hclear⟩
    · simp +contextual [hsame]
    · refine ⟨by simp [hfalse], fun _ _ => ?_⟩
      rcases hclear with ⟨v, rfl, hv⟩ | ⟨v, rfl, hv⟩ | ⟨hp, w, rfl⟩
      · exact .inl ⟨v, hact, hv⟩
      · exact .inr (.inl (.inr ⟨v, hact, hv⟩))
      · exact .inr (.inr ⟨hp, w, hact⟩)
  · have hdone := (completes_of_exec hexec).done_eq
    exact ⟨fun _ _ => hact, by simp [hdone]⟩
  · have hdone : t.done = false := by rw [eq_of_resetBlock hreset]; rfl
    exact ⟨by simp [hdone], fun _ _ => .inr (.inl (.inl hact))⟩
  · simp +contextual

/-! ### OVR -/

/-- What a host operation does to OVR: nothing, a clearing, or a lost write raises it (R137). -/
theorem HostEffect.ovr_cases {op : HostOp} {s t : State} (h : HostEffect op s t) :
    t.ovr = s.ovr ∨
    (t.ovr = false ∧
      ((∃ v : Word, op = .wr .word Reg.status.offset v ∧ v.getLsbD 2 = true) ∨
       ∃ v : Word, op = .wr .word Reg.ctrl.offset v ∧ v.getLsbD 1 = true)) ∨
    (s.phase = .busy ∧ t.ovr = true ∧
      ∃ (r : Reg) (v : Word), op = .wr .word r.offset v ∧ (s.ovr = false → r ∈ busyGated)) := by
  cases h with
  | view ht | operand _ ht => exact .inl (by rw [ht])
  | store | setIe | accept => exact .inl rfl
  | softReset hv hr => exact .inr (.inl ⟨by rw [eq_of_resetBlock hr]; rfl, .inr ⟨_, rfl, hv⟩⟩)
  | lost v hp hr => exact .inr (.inr ⟨hp, rfl, _, v, rfl, hr⟩)
  | clear v =>
    cases hv : v.getLsbD 2 with
    | false => exact .inl (by rw [clearStatus_ovr, hv]; simp)
    | true => exact .inr (.inl ⟨by rw [clearStatus_ovr, hv]; simp, .inl ⟨v, rfl, hv⟩⟩)

/-- Settles O56, from what the action of the step does to OVR. -/
theorem overrunIsSticky : Obligations.OverrunIsSticky := by
  intro s t hstep
  rcases step_cases hstep with ⟨op, hact, hop⟩ | ⟨hact, hexec⟩ | ⟨hact, hreset⟩ | ⟨hact, rfl⟩
  · have hovr := (hostEffect_of_hostOp hop).ovr_cases
    rw [turnTaken_ovr, turnTaken_phase] at hovr
    rcases hovr with hsame | ⟨hfalse, hclear⟩ | ⟨hp, htrue, r, v, rfl, hr⟩
    · simp +contextual [hsame]
    · refine ⟨by simp [hfalse], fun _ _ => ?_⟩
      rcases hclear with ⟨v, rfl, hv⟩ | ⟨v, rfl, hv⟩
      · exact .inl ⟨v, hact, hv⟩
      · exact .inr (.inr ⟨v, hact, hv⟩)
    · exact ⟨fun h0 _ => ⟨hp, r.offset, v, hact, List.mem_map_of_mem (f := Reg.offset) (hr h0)⟩, by simp [htrue]⟩
  · have hovr := (completes_of_exec hexec).ovr_eq
    simp +contextual [hovr]
  · have hovr : t.ovr = false := by rw [eq_of_resetBlock hreset]; rfl
    exact ⟨by simp [hovr], fun _ _ => .inr (.inl hact)⟩
  · simp +contextual

/-! ### Reset -/

/-- A reset is answered unless it would abandon a command in breach of R54 (log 11). -/
theorem resetBlock_eq_next {s : State} (h : s.phase = .idle ∨ latchedBreach s = false) :
    resetBlock s = .next (blockReset (abandon s)) := by
  rcases resetBlock_cases s with ⟨hb, hl, -⟩ | ⟨-, he⟩
  · rcases h with h | h
    · rw [busy_eq_false.2 h] at hb
      cases hb
    · rw [h] at hl
      cases hl
  · exact he

theorem capacityWord_of_imgDim_eq_zero {s : State} (h : s.imgDim = 0) : capacityWord s = 0 := by
  simp [capacityWord, dimWidth, h]

/-- Settles O49: the answered reset is `blockReset` over `abandon`, whatever the phase was. -/
theorem resetFromAnyState : Obligations.ResetFromAnyState := by
  intro s hs
  refine ⟨fun v hv => ?_, fun rest hsched => ?_, blockReset (abandon s), resetBlock_eq_next hs, ?_, ?_, ?_, rfl⟩
  · exact (hostOp_wr_offset .ctrl v s).trans (if_pos hv)
  · simp [step, hsched, takeTurn]
  · rw [abandon_eq]
    rfl
  · exact windowRead_offset .id _
  · exact (windowRead_offset .capacity _).trans (capacityWord_of_imgDim_eq_zero rfl)

end Sys2Proof.Machine
end

section
/-! PROOFS. The invariant: it holds after reset and every step keeps it (spec/10_state.md R32 to R34, spec/20_memory.md R46,
spec/42_decoder.md R97, spec/43_control.md R130). -/

namespace Sys2Proof.Machine

/-! ### The memory's part of the invariant -/

/-- The memory's part of `State.Inv`: canonical, and with no byte at or past MEM_BYTES. -/
structure State.MemSound (s : State) : Prop where
  canonical : s.mem.wf = true
  inside : s.mem.below s.memBytes = true

namespace State.MemSound

variable {s : State}

theorem congr (h : s.MemSound) {t : State} (hmem : t.mem = s.mem) (htop : t.memTop = s.memTop) : t.MemSound where
  canonical := hmem ▸ h.canonical
  inside := by
    rw [State.memBytes, htop, hmem]
    exact h.inside

theorem write (h : s.MemSound) {a : Nat} (ha : a < s.memBytes) (v : Byte) :
    State.MemSound { s with mem := s.mem.write a v } :=
  ⟨Memory.wf_write _ _ h.canonical, Memory.below_write _ ha h.inside⟩

theorem freeBuffer (h : s.MemSound) (x : Buffer) : (Machine.freeBuffer x s).MemSound :=
  ⟨wf_freeBuffer h.canonical, below_freeBuffer h.inside⟩

theorem abandon (h : s.MemSound) : (Machine.abandon s).MemSound := by
  unfold Machine.abandon
  split
  · exact List.foldlRecOn (motive := State.MemSound) _ _ h fun _ hu x _ => hu.freeBuffer x
  · exact h

/-- ENCODE in range writes only bytes the memory has (R89). -/
theorem encodeRun (h : s.MemSound) (hr : encodeReady s = true) : (Machine.encodeRun s).MemSound := by
  obtain ⟨-, hrange, -⟩ := encodeReady_iff.1 hr
  obtain ⟨-, hlock, -⟩ := encodeInRange_iff.1 hrange
  rw [Buffer.inRange_cases, lockBuffer_base, lockBuffer_size] at hlock
  have htop : (Machine.encodeRun s).memBytes = s.memBytes := by simp [Machine.encodeRun, State.memBytes]
  refine ⟨wf_encodeLoop _ h.canonical, ?_⟩
  rw [htop]
  exact below_encodeLoop (by omega) h.inside

/-- DECODE in range writes only bytes the memory has (R103). -/
theorem decodeRun (h : s.MemSound) (hr : decodeReady s = true) : (Machine.decodeRun s).1.MemSound := by
  obtain ⟨-, hrange, -⟩ := decodeReady_iff.1 hr
  obtain ⟨-, -, hout⟩ := decodeInRange_iff.1 hrange
  rw [Buffer.inRange_cases, outBuffer_base, outBuffer_size] at hout
  have htop : (Machine.decodeRun s).1.memBytes = s.memBytes := by simp [Machine.decodeRun, State.memBytes]
  refine ⟨wf_decodeLoop _ h.canonical, ?_⟩
  rw [htop]
  exact below_decodeLoop (s := { s with lnz := 0 }) hout h.inside

end State.MemSound

/-! ### What a DECODE leaves in the result registers -/

/-- LNZ is one past an index of the loop, or what it was. -/
theorem lnz_decodeLoop_le {is : List Nat} {n : Nat} (his : ∀ i ∈ is, i < n) {s : State} (hs : s.lnz.toNat ≤ n) :
    (decodeLoop is s).1.lnz.toNat ≤ n := by
  induction is generalizing s with
  | nil => exact hs
  | cons i is ih =>
    have hi : i < n := his i (by simp)
    unfold decodeLoop
    split
    · next v _ =>
      refine ih (fun j hj => his j (by simp [hj])) ?_
      rw [recover_lnz]
      split
      · rw [BitVec.toNat_ofNat]
        exact (Nat.mod_le _ _).trans hi
      · exact hs
    · exact hs

theorem lnz_decodeRun_le (s : State) : (decodeRun s).1.lnz.toNat ≤ 65535 * 65535 :=
  (lnz_decodeLoop_le (fun _ => List.mem_range.1) (Nat.zero_le _)).trans (pixelCount_le s)

/-- The differences DECODE reports are those of a malformed pixel. -/
theorem decColour_of_decodeRun {s : State} (hr : decodeReady s = true) {i : Nat} {d : Triple}
    (h : (decodeRun s).2 = some (i, d)) : ∃ l k, decColour l k = .malformed d := by
  obtain ⟨-, -, hapart⟩ := decodeReady_iff.1 hr
  have hreport := decodeLoop_reports (s := { s with lnz := 0 }) hapart (Nat.le_refl (pixelCount s))
  have hsnd : (decodeLoop (List.range (pixelCount s)) { s with lnz := 0 }).2 = some (i, d) := h
  rw [hsnd] at hreport
  obtain ⟨-, hmalformed, -⟩ := hreport
  exact ⟨_, _, hmalformed⟩

/-! ### The recorded differences -/

theorem lane_zero (k : Nat) : lane 0 k = 0 := by simp [lane]

theorem lane_packTriple {t : Triple} (hr : t.r ≤ 255) (hg : t.g ≤ 255) (hb : t.b ≤ 255) :
    (lane (packTriple t) 0).toNat = t.r ∧ (lane (packTriple t) 1).toNat = t.g ∧ (lane (packTriple t) 2).toNat = t.b ∧
      (lane (packTriple t) 3).toNat = 0 := by
  simp only [lane_toNat, packTriple_toNat hr hg hb]
  omega

/-- What ERR_INFO records of a malformed pixel: the differences of no byte, under a zero lane (R34, R97). -/
theorem lanes_of_malformed {l k : Colour} {d : Triple} (h : decColour l k = .malformed d) :
    (3 < (lane (packTriple d) 0).toNat ∨ 7 < (lane (packTriple d) 1).toNat ∨ 7 < (lane (packTriple d) 2).toNat) ∧
      lane (packTriple d) 3 = 0 := by
  obtain ⟨rfl, hbad⟩ := decColour_malformed h
  obtain ⟨h0, h1, h2, h3⟩ := lane_packTriple (t := differences l k) (absdiff8_le _ _) (absdiff8_le _ _) (absdiff8_le _ _)
  rw [h0, h1, h2]
  exact ⟨hbad, BitVec.eq_of_toNat_eq h3⟩

/-! ### The invariant and the operations -/

namespace State.Inv

variable {s t : State}

theorem memSound (h : s.Inv) : s.MemSound := ⟨h.memCanonical, h.memExists⟩

/-- The invariant speaks of the memory, the phase, DONE, ERR and its records, and OUT_LEN alone. -/
theorem congr (h : s.Inv) (ht : { t with
    mem := s.mem, memTop := s.memTop, phase := s.phase, done := s.done, err := s.err, errIdx := s.errIdx
    errInfo := s.errInfo, outLen := s.outLen } = t) : t.Inv := by
  rw [← ht]
  exact ⟨h.memCanonical, h.memExists, h.busyView, h.recordsZero, h.recordsMalformed, h.infoTopZero, h.outLenBound⟩

/-- The end of a command that records nothing. -/
theorem finish_of_ne_malformed (hmem : s.MemSound) (hout : s.outLen.toNat ≤ 65535 * 65535) {e : ErrCode}
    (he : e ≠ .malformedPayload) : (finish e 0 0 s).Inv where
  memCanonical := hmem.canonical
  memExists := hmem.inside
  busyView hp := Phase.noConfusion hp
  recordsZero _ _ := ⟨rfl, rfl⟩
  recordsMalformed hm := absurd hm he
  infoTopZero := lane_zero 3
  outLenBound := hout

/-- The end of a command that records a malformed pixel. -/
theorem finish_malformed (hmem : s.MemSound) (hout : s.outLen.toNat ≤ 65535 * 65535) (i : Word) {d : Triple}
    {l k : Colour} (hd : decColour l k = .malformed d) : (finish .malformedPayload i (packTriple d) s).Inv where
  memCanonical := hmem.canonical
  memExists := hmem.inside
  busyView hp := Phase.noConfusion hp
  recordsZero _ hne := absurd rfl hne
  recordsMalformed _ := (lanes_of_malformed hd).1
  infoTopZero := (lanes_of_malformed hd).2
  outLenBound := hout

theorem completes {i : Instr} (h : s.Inv) (hc : Completes i s t) : t.Inv := by
  have hmem := h.memSound
  have hout := h.outLenBound
  cases hc with
  | nop | digits | encpx | decpx | illegal =>
    refine finish_of_ne_malformed ?_ ?_ (by decide)
    · exact hmem.congr rfl rfl
    · exact hout
  | decpxMalformed hd => exact finish_malformed hmem hout 0 hd
  | encodeFails he =>
    refine finish_of_ne_malformed hmem hout ?_
    rcases he with rfl | rfl <;> decide
  | encode hr =>
    refine finish_of_ne_malformed (hmem.encodeRun hr) ?_ (by decide)
    rwa [encodeRun, encodeLoop_outLen]
  | decodeFails he =>
    refine finish_of_ne_malformed ?_ (Nat.zero_le _) ?_
    · exact hmem.congr rfl rfl
    · rcases he with rfl | rfl <;> decide
  | decode hr =>
    refine finish_of_ne_malformed ?_ ?_ (by decide)
    · exact (hmem.decodeRun hr).congr rfl rfl
    · exact lnz_decodeRun_le s
  | decodeMalformed hr hd =>
    obtain ⟨l, k, hbad⟩ := decColour_of_decodeRun hr hd
    have hrun : State.MemSound { (decodeRun s).1 with outLen := 0 } := (hmem.decodeRun hr).congr rfl rfl
    exact finish_malformed (hrun.freeBuffer (outBuffer s)) (Nat.zero_le _) _ hbad

/-- The reset values meet the invariant over any memory that does. -/
theorem blockReset (hmem : s.MemSound) : (Machine.blockReset s).Inv where
  memCanonical := hmem.canonical
  memExists := hmem.inside
  busyView hp := Phase.noConfusion hp
  recordsZero _ _ := ⟨rfl, rfl⟩
  recordsMalformed hm := ErrCode.noConfusion hm
  infoTopZero := lane_zero 3
  outLenBound := Nat.zero_le _

theorem resetBlock (h : s.Inv) (hr : Machine.resetBlock s = .next t) : t.Inv := by
  rw [eq_of_resetBlock hr]
  exact blockReset h.memSound.abandon

theorem accept (h : s.Inv) (w : Word) : (Machine.accept w s).Inv where
  memCanonical := h.memCanonical
  memExists := h.memExists
  busyView _ := ⟨rfl, rfl⟩
  recordsZero hp := Phase.noConfusion hp
  recordsMalformed hm := ErrCode.noConfusion hm
  infoTopZero := h.infoTopZero
  outLenBound := h.outLenBound

/-- A STATUS write can only clear DONE, which is clear while BUSY (R119, R130). -/
theorem clearStatus (h : s.Inv) (v : Word) : (Machine.clearStatus v s).Inv where
  memCanonical := h.memCanonical
  memExists := h.memExists
  busyView hp := by
    obtain ⟨hdone, herr⟩ := h.busyView hp
    exact ⟨by simp [hdone], herr⟩
  recordsZero := h.recordsZero
  recordsMalformed := h.recordsMalformed
  infoTopZero := h.infoTopZero
  outLenBound := h.outLenBound

theorem write (h : s.Inv) {a : Nat} (ha : a < s.memBytes) (v : Byte) : State.Inv { s with mem := s.mem.write a v } where
  memCanonical := (h.memSound.write ha v).canonical
  memExists := (h.memSound.write ha v).inside
  busyView := h.busyView
  recordsZero := h.recordsZero
  recordsMalformed := h.recordsMalformed
  infoTopZero := h.infoTopZero
  outLenBound := h.outLenBound

theorem hostEffect {op : HostOp} (h : s.Inv) (he : HostEffect op s t) : t.Inv := by
  cases he with
  | view ht | operand _ ht => exact h.congr (by rw [ht])
  | store v ha => exact h.write ha v
  | softReset _ hr => exact h.resetBlock hr
  | setIe | lost => exact h.congr rfl
  | clear v => exact h.clearStatus v
  | accept w => exact h.accept w

theorem turnTaken (h : s.Inv) : (Machine.turnTaken s).Inv := h.congr (by rw [turnTaken_eq])

end State.Inv

/-- Settles O53: the turn is taken off, and then each action of a step keeps the invariant. -/
theorem everyStepKeepsTheInvariant : Obligations.EveryStepKeepsTheInvariant := by
  intro s t hs hstep
  have hinv := hs.turnTaken
  rcases step_cases hstep with ⟨op, -, hop⟩ | ⟨-, hexec⟩ | ⟨-, hreset⟩ | ⟨-, rfl⟩
  · exact hinv.hostEffect (hostEffect_of_hostOp hop)
  · exact hinv.completes (completes_of_exec hexec)
  · exact hinv.resetBlock hreset
  · exact hinv

theorem inv_powerUp (memTop : Word) : (State.powerUp memTop).Inv :=
  State.Inv.blockReset (s := State.powerUp memTop) ⟨rfl, rfl⟩

/-- Settles O52: the reset state is the power-up state of the platform's own MEM_BYTES. -/
theorem invariantHoldsAfterReset : Obligations.InvariantHoldsAfterReset :=
  ⟨inv_powerUp Config.memTop, inv_powerUp⟩

end Sys2Proof.Machine
end

section
/-! PROOFS. The data memory: when two buffers overlap, which bytes the host may access, and who changes a byte
(spec/20_memory.md R45, R46, R54, R56; spec/70_reset_and_hazards.md R154). -/

namespace Sys2Proof.Machine

/-! ### Buffers -/

theorem Buffer.holds_eq_false_iff {x : Buffer} {a : Nat} : x.holds a = false ↔ a < x.base ∨ x.base + x.size ≤ a := by
  rw [← Bool.not_eq_true, Buffer.holds_iff]
  omega

/-- Two buffers are not apart exactly if they share a byte (R54). -/
theorem Buffer.not_apart_iff {x y : Buffer} : ¬x.apart y = true ↔ ∃ a, x.holds a = true ∧ y.holds a = true := by
  rw [Buffer.apart_iff]
  push Not
  simp only [and_true]

/-! ### The refusal of R54 -/

theorem exec_encode_refused_iff (s : State) : exec .encode s = .refused .bufferOverlap ↔ encodeBreach s = true := by
  change execEncode s = _ ↔ _
  rcases execEncode_cases s with ⟨hlen, he⟩ | ⟨-, hrange, he⟩ | ⟨hlen, hrange, hapart, he⟩ | ⟨hready, he⟩
  · simp [encodeBreach, he, hlen]
  · simp [encodeBreach, he, hrange]
  · simp [encodeBreach, he, hlen, hrange, hapart]
  · simp [encodeBreach, he, (encodeReady_iff.1 hready).2.2]

theorem exec_decode_refused_iff (s : State) : exec .decode s = .refused .bufferOverlap ↔ decodeBreach s = true := by
  change execDecode s = _ ↔ _
  rcases execDecode_cases s with ⟨hdim, he⟩ | ⟨-, hrange, he⟩ | ⟨hdim, hrange, hapart, he⟩ | ⟨hready, he⟩
  · simp [decodeBreach, he, hdim]
  · simp [decodeBreach, he, hrange]
  · simp [decodeBreach, he, hdim, hrange, hapart]
  · simp [decodeBreach, he, (decodeReady_iff.1 hready).2.2]

/-- ENCODE breaks R54 exactly if a lock byte is a payload byte, or a cover byte while the encoding is not in place. -/
theorem not_encodeKeepsApart_iff {s : State} : ¬encodeKeepsApart s = true ↔
    ∃ a, (lockBuffer s).holds a = true ∧
      ((payloadBuffer s).holds a = true ∨ ((coverBuffer s).holds a = true ∧ s.lockBase ≠ s.coverBase)) := by
  rw [encodeKeepsApart_iff, not_and_or, not_or, Buffer.not_apart_iff, Buffer.not_apart_iff]
  constructor
  · rintro (⟨hne, a, hl, hc⟩ | ⟨a, hl, hp⟩)
    · exact ⟨a, hl, .inr ⟨hc, hne⟩⟩
    · exact ⟨a, hl, .inl hp⟩
  · rintro ⟨a, hl, hp | ⟨hc, hne⟩⟩
    · exact .inr ⟨a, hl, hp⟩
    · exact .inl ⟨hne, a, hl, hc⟩

/-- DECODE breaks R54 exactly if an out byte is a lock or a key byte. -/
theorem not_decodeKeepsApart_iff {s : State} : ¬decodeKeepsApart s = true ↔
    ∃ a, (outBuffer s).holds a = true ∧ ((lockBuffer s).holds a = true ∨ (keyBuffer s).holds a = true) := by
  rw [decodeKeepsApart_iff, not_and_or, Buffer.not_apart_iff, Buffer.not_apart_iff, ← exists_or]
  simp only [and_or_left]

/-- Settles O22: past the checks a command is refused exactly if it is in breach, and a breach is a shared byte. -/
theorem overlapIsRefused : Obligations.OverlapIsRefused := by
  constructor
  · intro s hlen hrange
    rw [exec_encode_refused_iff, ← not_encodeKeepsApart_iff]
    simp [encodeBreach, hlen, hrange]
  · intro s hdim hrange
    have hagree : dimensionsAgree s = true := dimensionsAgree_iff.2 ⟨by rw [hdim], by rw [hdim]⟩
    rw [exec_decode_refused_iff, ← not_decodeKeepsApart_iff]
    simp [decodeBreach, hagree, hrange]

/-! ### The host's accesses -/

/-- A host read races only with a running command that writes the byte (R56). -/
theorem hostReadRaces_eq_false_iff {s : State} {a : Nat} :
    hostReadRaces s a = false ↔ s.phase = .idle ∨ ∀ x ∈ writeBuffers s, x.holds a = false := by
  simp only [hostReadRaces, Bool.and_eq_false_iff, busy_eq_false, List.any_eq_false, Bool.not_eq_true]

/-- A host write races only with a running command that reads or writes the byte (R56). -/
theorem hostWriteRaces_eq_false_iff {s : State} {a : Nat} :
    hostWriteRaces s a = false ↔ s.phase = .idle ∨ ∀ x ∈ readBuffers s ++ writeBuffers s, x.holds a = false := by
  simp only [hostWriteRaces, Bool.and_eq_false_iff, busy_eq_false, List.any_eq_false, Bool.not_eq_true]

theorem hostMrd_eq_next {s : State} {a : Word} (ha : a.toNat < s.memBytes) (hrace : hostReadRaces s a.toNat = false) :
    hostMrd a s = .next { s with lastRead := (s.mem.read a.toNat).setWidth 32 } := by
  simp [hostMrd, Nat.not_le.2 ha, hrace]

theorem hostMwr_eq_next {s : State} {a : Word} (v : Byte) (ha : a.toNat < s.memBytes)
    (hrace : hostWriteRaces s a.toNat = false) : hostMwr a v s = .next { s with mem := s.mem.write a.toNat v } := by
  simp [hostMwr, Nat.not_le.2 ha, hrace]

/-- Settles O45: an access to a byte the memory has is answered unless it races. -/
theorem hostMemoryAccess : Obligations.HostMemoryAccess := by
  constructor
  · intro s a ha hfree
    exact hostMrd_eq_next ha (hostReadRaces_eq_false_iff.2 hfree)
  · intro s a v ha hfree
    refine ⟨_, hostMwr_eq_next v ha (hostWriteRaces_eq_false_iff.2 hfree), rfl, fun b => ?_⟩
    simp only [Memory.read_write, eq_comm]

/-! ### The bytes a command writes -/

/-- Address `a` is in the write range of the command `i` with the operands of `s` (R53, R154). -/
def WritesByte (i : Instr) (s : State) (a : Nat) : Prop :=
  (i = .encode ∧ (lockBuffer s).holds a = true) ∨ (i = .decode ∧ (outBuffer s).holds a = true)

@[simp] theorem writesByte_encode {s : State} {a : Nat} : WritesByte .encode s a ↔ (lockBuffer s).holds a = true := by
  simp [WritesByte]

@[simp] theorem writesByte_decode {s : State} {a : Nat} : WritesByte .decode s a ↔ (outBuffer s).holds a = true := by
  simp [WritesByte]

@[simp] theorem writesByte_turnTaken {i : Instr} {s : State} {a : Nat} :
    WritesByte i (turnTaken s) a ↔ WritesByte i s a := by
  rw [turnTaken_eq]
  rfl

/-- The running command's write range is the byte set of its write buffers. -/
theorem writesByte_running_iff {s : State} {a : Nat} :
    WritesByte (running s) s a ↔ ∃ x ∈ writeBuffers s, x.holds a = true := by
  unfold writeBuffers running
  cases decode s.latch <;> simp [WritesByte]

/-! ### A completion -/

theorem read_encodeRun_outside {s : State} {a : Nat} (h : (lockBuffer s).holds a = false) :
    (encodeRun s).mem.read a = s.mem.read a :=
  encodeLoop_outside _ s (Buffer.holds_eq_false_iff.1 h)

theorem read_decodeRun_outside {s : State} {a : Nat} (h : (outBuffer s).holds a = false) :
    (decodeRun s).1.mem.read a = s.mem.read a :=
  decodeLoop_outside _ { s with lnz := 0 } (Buffer.holds_eq_false_iff.1 h)

/-- A completion leaves every byte outside its command's write range alone. -/
theorem Completes.read_eq_of_not_writesByte {i : Instr} {s t : State} {a : Nat} (h : Completes i s t)
    (ha : ¬WritesByte i s a) : t.mem.read a = s.mem.read a := by
  cases h with
  | nop | digits | encpx | decpx | decpxMalformed | encodeFails | decodeFails | illegal => rfl
  | encode =>
    rw [writesByte_encode, Bool.not_eq_true] at ha
    exact read_encodeRun_outside ha
  | decode =>
    rw [writesByte_decode, Bool.not_eq_true] at ha
    exact read_decodeRun_outside ha
  | decodeMalformed =>
    rw [writesByte_decode, Bool.not_eq_true] at ha
    exact (Memory.read_freeBuffer_other ha).trans (read_decodeRun_outside ha)

/-! ### A reset -/

theorem abandon_of_idle {s : State} (h : s.phase = .idle) : abandon s = s := by
  simp [abandon, busy_eq_false.2 h]

/-- Abandoning a command leaves every byte outside its write range alone (R154). -/
theorem read_abandon_outside {s : State} {a : Nat} (h : ¬WritesByte (running s) s a) :
    (abandon s).mem.read a = s.mem.read a := by
  rw [writesByte_running_iff] at h
  push Not at h
  unfold abandon
  split
  · refine List.foldlRecOn (motive := fun t : State => t.mem.read a = s.mem.read a) _ _ rfl fun t ht x hx => ?_
    rw [Memory.read_freeBuffer_other (by simpa using h x hx), ht]
  · rfl

/-- A reset changes a byte only where it abandons a frame command that writes it (R154). -/
theorem writesByte_of_resetBlock {s t : State} {a : Nat} (h : resetBlock s = .next t)
    (hne : t.mem.read a ≠ s.mem.read a) : s.phase = .busy ∧ WritesByte (running s) s a := by
  rw [eq_of_resetBlock h, blockReset_mem] at hne
  refine ⟨(phase_cases s).resolve_left fun hp => ?_, not_not.1 fun hw => hne (read_abandon_outside hw)⟩
  exact hne (by rw [abandon_of_idle hp])

/-! ### A step -/

@[simp] theorem turnTaken_mem (s : State) : (turnTaken s).mem = s.mem := by rw [turnTaken_eq]

/-- What a host operation does to a byte: nothing, or it writes that byte, or it is a soft reset. -/
theorem HostEffect.read_cases {op : HostOp} {s t : State} (h : HostEffect op s t) (a : Nat) :
    t.mem.read a = s.mem.read a ∨
    (∃ (w : Word) (v : Byte), op = .mwr w v ∧ w.toNat = a) ∨
    ∃ v : Word, op = .wr .word Reg.ctrl.offset v ∧ v.getLsbD 1 = true ∧ resetBlock s = .next t := by
  cases h with
  | view ht | operand _ ht => exact .inl (by rw [ht])
  | setIe | clear | accept | lost => exact .inl rfl
  | softReset hv hr => exact .inr (.inr ⟨_, rfl, hv, hr⟩)
  | @store w v =>
    rcases eq_or_ne w.toNat a with hw | hw
    · exact .inr (.inl ⟨w, v, rfl, hw⟩)
    · exact .inl (Memory.read_write_other _ v hw)

/-- A completion step is taken only while BUSY (R115). -/
theorem phase_busy_of_completion {s : State} (h : nextAction s = .completion) : s.phase = .busy := by
  refine (phase_cases s).resolve_left fun hp => ?_
  have hhost : hostAction s ≠ .completion := by
    unfold hostAction
    split <;> simp
  rw [nextAction, busy_eq_false.2 hp] at h
  split at h
  · exact hhost h
  · simp at h
  · simp at h
  · exact hhost (by simpa using h)

/-- Settles O57, from what the action of the step does to one byte. -/
theorem memoryChangesOnlyByItsWriters : Obligations.MemoryChangesOnlyByItsWriters := by
  intro s t a hstep hne
  rw [← turnTaken_mem s] at hne
  have hreset (h : resetBlock (turnTaken s) = .next t) : s.phase = .busy ∧ WritesByte (running s) s a := by
    simpa using writesByte_of_resetBlock h hne
  rcases step_cases hstep with ⟨op, hact, hop⟩ | ⟨hact, hexec⟩ | ⟨hact, hr⟩ | ⟨-, rfl⟩
  · rcases (hostEffect_of_hostOp hop).read_cases a with heq | ⟨w, v, rfl, hw⟩ | ⟨v, rfl, hv, hr⟩
    · exact absurd heq hne
    · exact .inl ⟨w, v, hact, hw⟩
    · exact .inr ⟨.inr (.inr ⟨v, hact, hv⟩), hreset hr⟩
  · refine .inr ⟨.inl hact, phase_busy_of_completion hact, ?_⟩
    have hwrites : WritesByte (running s) (turnTaken s) a :=
      not_not.1 fun hw => hne ((completes_of_exec hexec).read_eq_of_not_writesByte hw)
    exact writesByte_turnTaken.1 hwrites
  · exact .inr ⟨.inr (.inl hact), hreset hr⟩
  · exact absurd rfl hne

end Sys2Proof.Machine
end

section
/-! PROOFS. The command words: the opcode map as the set of the six legal words, and the decoder and the encoder over it
(spec/30_encoding.md R64 to R66, R72). -/

namespace Sys2Proof

/-- The six values of OP in the opcode map of R66. -/
def legalOps : List Byte := [0x00, 0x01, 0x02, 0x03, 0x10, 0x11]

theorem not_mem_legalOps_iff {op : Byte} :
    op ∉ legalOps ↔ op ≠ 0x00 ∧ op ≠ 0x01 ∧ op ≠ 0x02 ∧ op ≠ 0x03 ∧ op ≠ 0x10 ∧ op ≠ 0x11 := by
  simp only [legalOps, List.mem_cons, List.not_mem_nil, or_false, not_or, ne_eq]

/-- The two fields of format C make up the word (R64). -/
theorem rsvField_append_opField (w : Word) : rsvField w ++ opField w = w :=
  (BitVec.extractLsb'_append_extractLsb'_eq_extractLsb' rfl).trans BitVec.extractLsb'_eq_self

/-- The words of the opcode map are its opcodes under a zero RSV (R66). -/
theorem legalWords_eq_map : legalWords = legalOps.map ((0 : BitVec 24) ++ ·) := rfl

/-- A word is legal exactly if RSV is zero and OP is in the opcode map (R65, R66). -/
theorem mem_legalWords_iff {w : Word} : w ∈ legalWords ↔ rsvField w = 0 ∧ opField w ∈ legalOps := by
  rw [legalWords_eq_map, List.mem_map]
  constructor
  · rintro ⟨op, hop, rfl⟩
    have hfield : opField ((0 : BitVec 24) ++ op) = op := BitVec.extractLsb'_append_eq_right
    exact ⟨BitVec.extractLsb'_append_eq_left, hfield.symm ▸ hop⟩
  · rintro ⟨hrsv, hop⟩
    exact ⟨opField w, hop, by rw [← hrsv, rsvField_append_opField]⟩

/-- An opcode outside the map selects ILLEGAL (R65). -/
theorem decodeOp_of_not_mem_legalOps (w : Word) {op : Byte} (h : op ∉ legalOps) : decodeOp w op = .illegal w := by
  obtain ⟨hnop, hdigits, hencpx, hdecpx, hencode, hdecode⟩ := not_mem_legalOps_iff.1 h
  rw [decodeOp, if_neg hnop, if_neg hdigits, if_neg hencpx, if_neg hdecpx, if_neg hencode, if_neg hdecode]

/-- Every word outside the opcode map is ILLEGAL (R65). -/
theorem decode_of_not_mem_legalWords {w : Word} (h : w ∉ legalWords) : decode w = .illegal w := by
  rw [mem_legalWords_iff, not_and] at h
  unfold decode
  split
  · next hrsv => exact decodeOp_of_not_mem_legalOps w (h hrsv)
  · rfl

theorem wellFormed_illegal_iff {w : Word} : (Instr.illegal w).wellFormed = true ↔ w ∉ legalWords := by
  simp [Instr.wellFormed, Instr.illegalWordIsIllegal]

/-- A legal word decodes to a command whose word it is (R66). -/
theorem decode_of_mem_legalWords {w : Word} (h : w ∈ legalWords) :
    (decode w).wellFormed = true ∧ encode (decode w) = w := by
  simp only [legalWords, List.mem_cons, List.not_mem_nil, or_false] at h
  rcases h with rfl | rfl | rfl | rfl | rfl | rfl <;> decide

theorem decode_encode {i : Instr} (h : i.wellFormed = true) : decode (encode i) = i := by
  cases i with
  | nop | digits | encpx | decpx | encode | decode => decide
  | illegal w => exact decode_of_not_mem_legalWords (wellFormed_illegal_iff.1 h)

theorem wellFormed_decode (w : Word) : (decode w).wellFormed = true := by
  by_cases h : w ∈ legalWords
  · exact (decode_of_mem_legalWords h).1
  · rw [decode_of_not_mem_legalWords h]
    exact wellFormed_illegal_iff.2 h

theorem encode_decode (w : Word) : encode (decode w) = w := by
  by_cases h : w ∈ legalWords
  · exact (decode_of_mem_legalWords h).2
  · rw [decode_of_not_mem_legalWords h]
    rfl

/-- Settles O2: a well-formed command's word is legal, or the command is ILLEGAL with a word outside the map. -/
theorem decodeEncodeAgree : Obligations.DecodeEncodeAgree :=
  ⟨fun _ h => decode_encode h, fun w => ⟨wellFormed_decode w, encode_decode w⟩⟩

/-- Settles O1: the six rows of the map, and that a word whose fields the map does not hold is not legal. -/
theorem opcodeMapDecodes : Obligations.OpcodeMapDecodes := by
  refine ⟨rfl, rfl, rfl, rfl, rfl, rfl, fun w hw => decode_of_not_mem_legalWords fun hlegal => ?_⟩
  obtain ⟨hrsv, hop⟩ := mem_legalWords_iff.1 hlegal
  rcases hw with hne | hne
  · exact hne hrsv
  · exact not_mem_legalOps_iff.2 hne hop

end Sys2Proof
end

section
/-! PROOFS. The polling loop of the host (spec/30_encoding.md R75). -/

namespace Sys2Proof.Machine

/-- While BUSY, a poll lays the loop down again (R75; log 16). -/
theorem hostWait_of_busy {s : State} (h : s.phase = .busy) :
    hostWait s = { s with lastRead := statusWord s, script := .wait :: s.script } := by
  simp only [hostWait, statusWord_getLsbD_zero, busy_eq_true.2 h, if_true]

/-- A poll that finds BUSY 0 ends the loop (R75). -/
theorem hostWait_of_idle {s : State} (h : s.phase = .idle) : hostWait s = { s with lastRead := statusWord s } := by
  simp only [hostWait, statusWord_getLsbD_zero, busy_eq_false.2 h, Bool.false_eq_true, if_false]

/-- Settles O46: a poll reads STATUS, and bit 0 of what it reads is BUSY. -/
theorem waitPollsStatus : Obligations.WaitPollsStatus := by
  intro s
  rw [windowRead_status]
  exact ⟨fun h => congrArg _ (hostWait_of_busy h), fun h => congrArg _ (hostWait_of_idle h)⟩

end Sys2Proof.Machine
end

section
/-! PROOFS. The capacity: CAPACITY is the pixel count, without wrap (spec/40_capacity.md R77, R78). -/

namespace Sys2Proof.Machine

theorem windowRead_capacity (s : State) : windowRead 0x018 s = capacityWord s := windowRead_offset .capacity s

/-- The product of two 16-bit fields fits in the 32 bits of CAPACITY, so nothing is cut off (R77). -/
theorem capacityWord_toNat (s : State) : (capacityWord s).toNat = pixelCount s := by
  have hfits : pixelCount s < 2 ^ 32 := lt_of_le_of_lt (pixelCount_le s) (by decide)
  have hwidth : ((dimWidth s.imgDim).setWidth 32).toNat = (dimWidth s.imgDim).toNat :=
    BitVec.toNat_setWidth_of_le (by decide)
  have hheight : ((dimHeight s.imgDim).setWidth 32).toNat = (dimHeight s.imgDim).toNat :=
    BitVec.toNat_setWidth_of_le (by decide)
  rw [capacityWord, BitVec.toNat_mul, hwidth, hheight]
  exact Nat.mod_eq_of_lt hfits

/-- An image with no columns or no rows has no pixels (R77). -/
theorem capacityWord_eq_zero {s : State} (h : dimWidth s.imgDim = 0 ∨ dimHeight s.imgDim = 0) : capacityWord s = 0 := by
  rcases h with h | h <;> simp [capacityWord, h]

/-- Settles O9: CAPACITY is the pixel count, which two 16-bit fields bound by 65535². -/
theorem capacityIsTheExactProduct : Obligations.CapacityIsTheExactProduct := by
  unfold Obligations.CapacityIsTheExactProduct
  simp only [windowRead_capacity]
  refine ⟨fun s => ⟨capacityWord_toNat s, ?_, ?_⟩, fun s => capacityWord_eq_zero, ?_, ?_, ?_⟩
  · exact (capacityWord_toNat s).trans_le (pixelCount_le s)
  · exact hostOp_rd_offset .capacity s
  all_goals
    intro s h
    rw [capacityWord, h]
    decide

end Sys2Proof.Machine
end

section
/-! PROOFS. The encoder's functions and the pixel commands DIGITS and ENCPX: the digit triple, the add-or-subtract rule
and the lock pixel (spec/41_encoder.md R81 to R87). -/

namespace Sys2Proof.Machine

/-! ### The digit triple -/

/-- The octal digits of a byte are its bits [7:6], [5:3] and [2:0] (R81). -/
theorem digits_eq_extract (v : Byte) :
    digits v = ⟨(v.extractLsb' 6 2).toNat, (v.extractLsb' 3 3).toNat, (v.extractLsb' 0 3).toNat⟩ := by
  have hr : v.toNat / 64 % 4 = v.toNat / 64 := Nat.mod_eq_of_lt (by have := v.isLt; omega)
  simp [digits, BitVec.extractLsb'_toNat, Nat.shiftRight_eq_div_pow, hr]

/-- Settles O3: the division form is the definition, the bit fields and the bounds are lemmas about it. -/
theorem digitTripleIsOctal : Obligations.DigitTripleIsOctal := fun v =>
  ⟨rfl, congrArg Triple.r (digits_eq_extract v), digits_r_le v,
    rfl, congrArg Triple.g (digits_eq_extract v), digits_g_le v,
    rfl, congrArg Triple.b (digits_eq_extract v), digits_b_le v⟩

theorem digits_r_le_seven (v : Byte) : (digits v).r ≤ 7 := (digits_r_le v).trans (by decide)

theorem digits_injective : Function.Injective digits := by
  intro v w h
  apply BitVec.eq_of_toNat_eq
  rw [← digits_value v, ← digits_value w, h]

/-- The triples that R82 calls encodable are digit triples. -/
theorem digits_ofNat {t : Triple} (hr : t.r ≤ 3) (hg : t.g ≤ 7) (hb : t.b ≤ 7) :
    digits (BitVec.ofNat 8 (64 * t.r + 8 * t.g + t.b)) = t := by
  have hfits : (64 * t.r + 8 * t.g + t.b) % 2 ^ 8 = 64 * t.r + 8 * t.g + t.b := Nat.mod_eq_of_lt (by omega)
  rw [digits, BitVec.toNat_ofNat, hfits]
  change _ = Triple.mk t.r t.g t.b
  congr 1 <;> omega

/-- Settles O4: a byte is the value of its digits, and every encodable triple is the digits of its value. -/
theorem digitTripleInverse : Obligations.DigitTripleInverse := by
  refine ⟨fun v w h => digits_injective h, digits_value, fun t hr hg hb => ?_, fun t ht => ⟨fun v hv => ?_, ?_⟩⟩
  · have himage := digits_ofNat hr hg hb
    exact ⟨_, himage, fun w hw => digits_injective (hw.trans himage.symm)⟩
  · have := digits_r_le v
    rw [hv] at this
    omega
  · exact assemble_eq_none.2 (.inl ht)

/-! ### The add-or-subtract rule -/

theorem choose_of_lt {c d : Nat} (h : c < d) : choose c d = c + d := if_pos h

theorem choose_of_le {c d : Nat} (h : d ≤ c) : choose c d = c - d := if_neg (Nat.not_lt.2 h)

/-- The rule changes a channel by exactly its digit (R84). -/
theorem natAbs_choose_sub (c d : Nat) : ((choose c d : Int) - (c : Int)).natAbs = d := by
  rcases Nat.lt_or_ge c d with h | h
  · rw [choose_of_lt h]
    omega
  · rw [choose_of_le h]
    omega

/-- Settles O5: one branch of the rule raises the channel, the other lowers it. -/
theorem addOrSubtractRule : Obligations.AddOrSubtractRule := by
  refine ⟨fun c d => choose_of_lt, fun c d => choose_of_le, fun c d hc hd => ?_, choose_zero⟩
  refine ⟨choose_le hc hd, natAbs_choose_sub c d, fun h => ?_, fun h => ?_⟩
  · rw [choose_of_lt h]
    omega
  · rw [choose_of_le h]
    exact Nat.sub_le c d

/-! ### The lock pixel -/

@[simp] theorem encPixel_a (p : Pixel) (v : Byte) : (encPixel p v).a = p.a := rfl

/-- The lock pixel differs from its cover by the digits of the byte (R91). -/
theorem differences_encPixel (p : Pixel) (v : Byte) : differences (encPixel p v).colour p.colour = digits v := by
  have hr := absdiff8_chooseByte p.r (digits_r_le_seven v)
  have hg := absdiff8_chooseByte p.g (digits_g_le v)
  have hb := absdiff8_chooseByte p.b (digits_b_le v)
  simp only [differences, Pixel.colour, encPixel, hr, hg, hb]

theorem encPixel_injective (p : Pixel) : Function.Injective (encPixel p) := by
  intro v w h
  apply digits_injective
  rw [← differences_encPixel p v, ← differences_encPixel p w, h]

/-! ### DIGITS and ENCPX -/

/-- Settles O13: the packed triple of a byte is its three bit fields, each widened to a lane. -/
theorem digitsWritesTheOctalTriple : Obligations.DigitsWritesTheOctalTriple := by
  refine ⟨rfl, fun s => ?_⟩
  change Host.Outcome.next (complete { s with res := packTriple (digits s.byteIn) }) = _
  simp only [digits_eq_extract, packTriple, BitVec.ofNat_toNat]
  rfl

/-- Settles O14: the lanes of RES are those of the lock pixel, and no lane is narrowed. -/
theorem encpxWritesTheLockPixel : Obligations.EncpxWritesTheLockPixel := by
  refine ⟨rfl, fun s => ⟨_, _, _, rfl, ?_, ?_, ?_⟩⟩
  · exact chooseByte_toNat _ (digits_r_le_seven _)
  · exact chooseByte_toNat _ (digits_g_le _)
  · exact chooseByte_toNat _ (digits_b_le _)

end Sys2Proof.Machine
end

section
/-! PROOFS. ENCODE: the payload byte of each pixel, the completion that passes the checks, and the lock image it leaves
(spec/41_encoder.md R80, R88 to R94). -/

namespace Sys2Proof.Machine

/-! ### The payload -/

theorem payloadByte_of_lt {s : State} {i : Nat} (h : i < s.len.toNat) :
    payloadByte s i = s.mem.read (s.payloadBase.toNat + i) := if_pos h

theorem payloadByte_of_le {s : State} {i : Nat} (h : s.len.toNat ≤ i) : payloadByte s i = 0 := if_neg (Nat.not_lt.2 h)

/-- Settles O10: the raster visits are the range of the pixel count, and the payload byte has its two cases. -/
theorem rasterOrderAndPayloadAssignment : Obligations.RasterOrderAndPayloadAssignment :=
  ⟨raster_eq_range, frameIndices_eq_range, fun _ _ => payloadByte_of_lt, fun _ _ => payloadByte_of_le⟩

/-! ### A completion without an error -/

theorem exec_encode_of_ready {s : State} (h : encodeReady s = true) :
    exec .encode s = .next (finish .none 0 0 (encodeRun s)) := by
  obtain ⟨hlen, hrange, hapart⟩ := encodeReady_iff.1 h
  change execEncode s = _
  simp [execEncode, Nat.not_lt.2 hlen, hrange, hapart, frameIndices_eq_range, encodeRun]

/-- An ENCODE without an error passed its checks and ran its pixel loop. -/
theorem ready_of_exec_encode {s t : State} (h : exec .encode s = .next t) (herr : t.err = .none) :
    encodeReady s = true ∧ t = finish .none 0 0 (encodeRun s) := by
  cases completes_of_exec h with
  | encodeFails he => rcases he with rfl | rfl <;> cases herr
  | encode hready => exact ⟨hready, rfl⟩

/-- The pixel loop leaves in each lock pixel the cover pixel with its payload byte encoded (R88). -/
theorem readPixel_encodeRun {s : State} (h : encodeReady s = true) {i : Nat} (hi : i < pixelCount s) :
    (encodeRun s).mem.readPixel (s.lockBase.toNat + 4 * i) =
      encPixel (s.mem.readPixel (s.coverBase.toNat + 4 * i)) (payloadByte s i) :=
  encodeLoop_pixel (encodeReady_iff.1 h).2.2 le_rfl hi

/-- The lock image of an ENCODE without an error, pixel by pixel (R88). -/
theorem readPixel_of_exec_encode {s t : State} (h : exec .encode s = .next t) (herr : t.err = .none) {i : Nat}
    (hi : i < pixelCount s) :
    t.mem.readPixel (s.lockBase.toNat + 4 * i) =
      encPixel (s.mem.readPixel (s.coverBase.toNat + 4 * i)) (payloadByte s i) := by
  obtain ⟨hready, rfl⟩ := ready_of_exec_encode h herr
  exact readPixel_encodeRun hready hi

/-! ### The statements about the lock image -/

/-- Settles O18: the pixel loop writes the lock image, and no byte outside the lock range. -/
theorem encodeWritesTheLockImage : Obligations.EncodeWritesTheLockImage := by
  intro s hready
  refine ⟨_, exec_encode_of_ready hready, ?_, fun i => readPixel_encodeRun hready, fun a => read_encodeRun_outside⟩
  obtain ⟨x, m, hrun⟩ := encodeRun_frame s
  rw [hrun]
  rfl

/-- Settles O19: a lock pixel differs from its cover by the digits of its payload byte, and those of the neutral byte
are 0. -/
theorem encodeChangesEachLaneByItsDigit : Obligations.EncodeChangesEachLaneByItsDigit := by
  intro s t h herr i hi k l
  have hl : l = encPixel k (payloadByte s i) := readPixel_of_exec_encode h herr hi
  have hdiff : differences l.colour k.colour = digits (payloadByte s i) := hl ▸ differences_encPixel k _
  refine ⟨?_, ?_, ?_, by rw [hl, encPixel_a], fun hlt => ?_, fun hle => ?_⟩
  · exact (congrArg Triple.r hdiff).trans_le (digits_r_le_seven _)
  · exact (congrArg Triple.g hdiff).trans_le (digits_g_le _)
  · exact (congrArg Triple.b hdiff).trans_le (digits_b_le _)
  · rw [hdiff, payloadByte_of_lt hlt]
  · rw [hl, payloadByte_of_le hle]
    exact encPixel_zero k

/-- Settles O20: neither lock image depends on where the lock buffer is. -/
theorem encodeInPlaceEqualsDisjoint : Obligations.EncodeInPlaceEqualsDisjoint := by
  intro s t u b hplace ht hterr hu huerr i hi
  rw [← hplace]
  exact (readPixel_of_exec_encode ht hterr hi).trans (readPixel_of_exec_encode hu huerr hi).symm

/-- Settles O21: a lock pixel is a function of its cover pixel and its payload byte, injective in the byte. -/
theorem encodeIsDeterministicAndInjective : Obligations.EncodeIsDeterministicAndInjective := by
  intro s₁ s₂ t₁ t₂ h₁ herr₁ h₂ herr₂ hdim hcover
  have hcount : pixelCount s₁ = pixelCount s₂ := by rw [pixelCount, pixelCount, hdim]
  have hlock₁ {i : Nat} (hi : i < pixelCount s₁) := readPixel_of_exec_encode h₁ herr₁ hi
  have hlock₂ {i : Nat} (hi : i < pixelCount s₁) := readPixel_of_exec_encode h₂ herr₂ (hcount ▸ hi)
  constructor
  · intro hpayload i hi
    rw [hlock₁ hi, hlock₂ hi, hcover i hi, hpayload i hi]
  · rintro hlen ⟨i, hlt, hne⟩
    have hi : i < pixelCount s₁ := hlt.trans_le (encodeReady_iff.1 (ready_of_exec_encode h₁ herr₁).1).1
    refine ⟨i, hi, fun heq => hne ?_⟩
    rw [hlock₁ hi, hlock₂ hi, hcover i hi] at heq
    have hbyte := encPixel_injective _ heq
    rwa [payloadByte_of_lt hlt, payloadByte_of_lt (hlen ▸ hlt)] at hbyte

end Sys2Proof.Machine
end

section
/-! PROOFS. The decoder's functions and the pixel command DECPX: the absolute difference, the octal reassembly, and that
decoding inverts encoding (spec/42_decoder.md R96 to R101). -/

namespace Sys2Proof.Machine

/-! ### Differences and reassembly -/

/-- Settles O6: the magnitude of the exact integer difference. -/
theorem absoluteDifference : Obligations.AbsoluteDifference := fun a b =>
  ⟨Int.natCast_natAbs _, absdiff8_le a b, absdiff8_comm a b, absdiff8_eq_zero⟩

/-- Settles O7: the combined condition of R97 implies both tests of the reassembly, and one of them fails without it. -/
theorem octalReassembly : Obligations.OctalReassembly := by
  intro d
  refine ⟨?_, fun hdigit => assemble_eq_none.2 (by omega), fun hvalue => assemble_eq_none.2 (by omega), ?_⟩
  · rw [assemble_eq_none]
    omega
  · intro hr hg hb
    refine ⟨_, assemble_of_encodable hr hg hb, ?_⟩
    exact (BitVec.toNat_ofNat _ _).trans (Nat.mod_eq_of_lt (by omega))

/-- The octal reassembly undoes the digit triple (R82, R97). -/
theorem assemble_digits (v : Byte) : assemble (digits v) = some v := by
  rw [assemble_of_encodable (digits_r_le v) (digits_g_le v) (digits_b_le v), digits_value, BitVec.ofNat_toNat,
    BitVec.setWidth_eq]

/-! ### Decoding a pixel -/

theorem decColour_of_assemble_some {l k : Colour} {v : Byte} (h : assemble (differences l k) = some v) :
    decColour l k = .ok v := by
  simp only [decColour, h]

theorem decColour_of_assemble_none {l k : Colour} (h : assemble (differences l k) = none) :
    decColour l k = .malformed (differences l k) := by
  simp only [decColour, h]

/-- Settles O8: the differences of the lock pixel are the digits of the byte, which reassemble to it. -/
theorem decodingInvertsEncodingOfAPixel : Obligations.DecodingInvertsEncodingOfAPixel := by
  intro k v
  apply decColour_of_assemble_some
  rw [differences_encPixel, assemble_digits]

/-! ### DECPX -/

/-- The packed differences, as a number (R68, R98). -/
theorem packTriple_differences (l k : Colour) :
    packTriple (differences l k) =
      BitVec.ofNat 32 ((differences l k).r + 256 * (differences l k).g + 65536 * (differences l k).b) := by
  rw [← packTriple_toNat (t := differences l k) (absdiff8_le _ _) (absdiff8_le _ _) (absdiff8_le _ _),
    BitVec.ofNat_toNat, BitVec.setWidth_eq]

theorem exec_decpx_of_ok {s : State} {v : Byte} (h : decPixel (unpackPixel s.pixA) (unpackPixel s.pixB) = .ok v) :
    exec .decpx s = .next (finish .none 0 0 { s with res := v.setWidth 32 }) := by
  change execDecpx s = _
  rw [execDecpx, h]
  rfl

theorem exec_decpx_of_malformed {s : State} {d : Triple}
    (h : decPixel (unpackPixel s.pixA) (unpackPixel s.pixB) = .malformed d) :
    exec .decpx s = .next (finish .malformedPayload 0 (packTriple d) s) := by
  change execDecpx s = _
  rw [execDecpx, h]
  rfl

/-- Settles O15: the three differences are those of `decPixel`, so they reassemble to the byte or are reported. -/
theorem decpxDecodesOrReports : Obligations.DecpxDecodesOrReports := by
  refine ⟨rfl, fun s => ?_⟩
  intro dR dG dB
  refine ⟨?_, fun hbad => ?_⟩
  · rintro ⟨hR, hG, hB⟩
    have hbyte : decPixel (unpackPixel s.pixA) (unpackPixel s.pixB) = .ok (BitVec.ofNat 8 (64 * dR + 8 * dG + dB)) :=
      decColour_of_assemble_some (assemble_of_encodable (d := ⟨dR, dG, dB⟩) hR hG hB)
    rw [exec_decpx_of_ok hbyte, BitVec.setWidth_ofNat_of_le_of_lt (by decide) (by omega)]
    rfl
  · have hnone : assemble ⟨dR, dG, dB⟩ = none := assemble_eq_none.2 (by dsimp only; omega)
    rw [exec_decpx_of_malformed (decColour_of_assemble_none hnone), packTriple_differences]
    rfl

end Sys2Proof.Machine
end

section
/-! PROOFS. DECODE: the completion that recovers the frame, the one that reports a malformed pixel, and the round trip
with ENCODE (spec/42_decoder.md R99, R102 to R109, R112). -/

namespace Sys2Proof.Machine

/-! ### A completion past the checks -/

theorem exec_decode_of_ready {s : State} (h : decodeReady s = true) :
    exec .decode s = .next (decodeEnd (decodeRun s)) := by
  obtain ⟨hdim, hrange, hapart⟩ := decodeReady_iff.1 h
  change execDecode s = _
  simp [execDecode, hdim, hrange, hapart, frameIndices_eq_range, decodeRun]

theorem decodeEnd_of_none {run : State × Option (Nat × Triple)} (h : run.2 = none) :
    decodeEnd run = finish .none 0 0 { run.1 with outLen := run.1.lnz } := by
  obtain ⟨r, e⟩ := run
  cases h
  rfl

theorem decodeEnd_of_some {run : State × Option (Nat × Triple)} {i : Nat} {d : Triple} (h : run.2 = some (i, d)) :
    decodeEnd run = finish .malformedPayload (BitVec.ofNat 32 i) (packTriple d)
      (freeBuffer (outBuffer run.1) { run.1 with outLen := 0 }) := by
  obtain ⟨r, e⟩ := run
  cases h
  rfl

section
variable {s : State} {f : Nat → Byte}

/-- Where every pixel decodes, the pixel loop runs through and counts the trim (R102, R105). -/
theorem decodeRun_of_ok (hready : decodeReady s = true) (hf : ∀ i < pixelCount s, decodedAt s i = .ok (f i)) :
    (decodeRun s).2 = none ∧
    (∀ i < pixelCount s, (decodeRun s).1.mem.read (s.outBase.toNat + i) = f i) ∧
    (decodeRun s).1.lnz = BitVec.ofNat 32 (trimmed f (pixelCount s)) :=
  decodeLoop_ok (s := { s with lnz := 0 }) (decodeReady_iff.1 hready).2.2 le_rfl hf rfl

/-- A DECODE whose every pixel decodes completes with the trimmed length in OUT_LEN (R105, R106). -/
theorem exec_decode_of_ok (hready : decodeReady s = true) (hf : ∀ i < pixelCount s, decodedAt s i = .ok (f i)) :
    exec .decode s =
      .next (finish .none 0 0 { (decodeRun s).1 with outLen := BitVec.ofNat 32 (trimmed f (pixelCount s)) }) := by
  obtain ⟨hnone, -, hlnz⟩ := decodeRun_of_ok hready hf
  rw [exec_decode_of_ready hready, decodeEnd_of_none hnone, hlnz]

/-- A DECODE whose first malformed pixel is `i` reports it (R107). -/
theorem exec_decode_of_malformed {i : Nat} {d : Triple} (hready : decodeReady s = true) (hi : i < pixelCount s)
    (hlow : ∀ j < i, ∃ v, decodedAt s j = .ok v) (hd : decodedAt s i = .malformed d) :
    exec .decode s = .next (finish .malformedPayload (BitVec.ofNat 32 i) (packTriple d)
      (freeBuffer (outBuffer s) { (decodeRun s).1 with outLen := 0 })) := by
  have hsome : (decodeRun s).2 = some (i, d) :=
    decodeLoop_malformed (s := { s with lnz := 0 }) (decodeReady_iff.1 hready).2.2 le_rfl hi hlow hd
  rw [exec_decode_of_ready hready, decodeEnd_of_some hsome, outBuffer_decodeRun]

end

/-- OUT_LEN holds any trimmed length: a frame has fewer than 2^32 pixels (R32). -/
theorem toNat_ofNat_of_le_pixelCount {s : State} {n : Nat} (h : n ≤ pixelCount s) :
    (BitVec.ofNat 32 n).toNat = n := by
  have := pixelCount_le s
  exact (BitVec.toNat_ofNat n 32).trans (Nat.mod_eq_of_lt (by omega))

/-- Settles O24: every pixel decodes, so the loop runs through, and OUT_LEN is the trim of the recovered bytes. -/
theorem decodeRecoversTheFrame : Obligations.DecodeRecoversTheFrame := by
  intro s f hready hf
  have hlen := toNat_ofNat_of_le_pixelCount (trimmed_le f (pixelCount s))
  refine ⟨_, exec_decode_of_ok hready hf, ?_, (decodeRun_of_ok hready hf).2.1, ?_, ?_, ?_,
    fun a => read_decodeRun_outside⟩
  · obtain ⟨x, z, m, hrun⟩ := decodeRun_frame s
    rw [hrun]
    rfl
  · exact hlen.trans_le (trimmed_le f _)
  · intro i hle hi
    exact eq_zero_of_trimmed_le (hlen.symm.trans_le hle) hi
  · intro hne
    rw [finish_outLen] at hne ⊢
    rw [hlen]
    exact ne_zero_of_trimmed fun hzero => hne (by rw [hzero]; rfl)

/-- Settles O25: no pixel before `i` is malformed, so the loop stops at `i`; what it freed is in the out range. -/
theorem decodeAbortsAtTheLowestMalformedPixel : Obligations.DecodeAbortsAtTheLowestMalformedPixel := by
  refine ⟨rfl, fun s i d hready hi hd hlowest => ?_⟩
  have hlow : ∀ j < i, ∃ v, decodedAt s j = .ok v := by
    intro j hj
    rcases decColour_cases _ _ with ⟨v, hv, -⟩ | ⟨hmalformed, -⟩
    · exact ⟨v, hv⟩
    · exact absurd hmalformed (hlowest j hj _)
  refine ⟨_, exec_decode_of_malformed hready hi hlow hd, ?_, toNat_ofNat_of_le_pixelCount hi.le, fun a ha => ?_⟩
  · obtain ⟨x, z, m, hrun⟩ := decodeRun_frame s
    obtain ⟨rfl, -⟩ := decColour_malformed hd
    rw [hrun, packTriple_differences]
    rfl
  · exact (Memory.read_freeBuffer_other ha).trans (read_decodeRun_outside ha)

/-! ### What DECODE depends on -/

/-- A DECODE that fails a check reports which one, and the memory is not in it (R103). -/
theorem eq_of_exec_decode_of_not_ready {s t : State} (hready : ¬decodeReady s = true) (h : exec .decode s = .next t) :
    t = finish (if dimensionsAgree s then .rangeFault else .dimensionMismatch) 0 0 { s with outLen := 0 } := by
  change execDecode s = _ at h
  rcases execDecode_cases s with ⟨hdim, he⟩ | ⟨hdim, -, he⟩ | ⟨-, -, -, he⟩ | ⟨hr, -⟩
  · cases he.symm.trans h
    simp [hdim]
  · cases he.symm.trans h
    simp [hdim]
  · cases he.symm.trans h
  · exact absurd hr hready

/-- Every pixel of the frame decodes, or there is a first malformed one. -/
theorem frame_decodes_or_malformed {s : State} (hready : decodeReady s = true) :
    (∃ f : Nat → Byte, ∀ i < pixelCount s, decodedAt s i = .ok (f i)) ∨
    ∃ i d, i < pixelCount s ∧ decodedAt s i = .malformed d ∧ ∀ j < i, ∃ v, decodedAt s j = .ok v := by
  have hreport := decodeLoop_reports (decodeReady_iff.1 hready).2.2 (Nat.le_refl (pixelCount s))
  split at hreport
  · choose! f hf using hreport
    exact .inl ⟨f, hf⟩
  · exact .inr ⟨_, _, hreport⟩

/-- DECODE reads the three colour bytes of a lock and a key pixel, and no alpha byte (R99, R104). -/
theorem decodedAt_congr {s : State} {m : Memory} {i : Nat} (h : ∀ k < 3,
      s.mem.read (s.lockBase.toNat + 4 * i + k) = m.read (s.lockBase.toNat + 4 * i + k) ∧
      s.mem.read (s.keyBase.toNat + 4 * i + k) = m.read (s.keyBase.toNat + 4 * i + k)) :
    decodedAt { s with mem := m } i = decodedAt s i := by
  have hlock := Memory.readColour_congr fun k hk => (h k hk).1
  have hkey := Memory.readColour_congr fun k hk => (h k hk).2
  simp only [decodedAt, hlock, hkey]

/-- Settles O26: the checks do not read the memory, and pixel by pixel both states decode alike. -/
theorem decodeIgnoresAlpha : Obligations.DecodeIgnoresAlpha := by
  intro s t u m hcolour ht hu
  have hsame (i : Nat) (hi : i < pixelCount s) : decodedAt { s with mem := m } i = decodedAt s i :=
    decodedAt_congr fun k hk => hcolour i k hi hk
  by_cases hready : decodeReady s = true
  · have hready' : decodeReady { s with mem := m } = true := hready
    rcases frame_decodes_or_malformed hready with ⟨f, hf⟩ | ⟨i, d, hi, hd, hlow⟩
    · have hf' (i : Nat) (hi : i < pixelCount s) := (hsame i hi).trans (hf i hi)
      cases (exec_decode_of_ok hready hf).symm.trans ht
      cases (exec_decode_of_ok hready' hf').symm.trans hu
      refine ⟨rfl, rfl, rfl, rfl, fun _ i hi => ?_⟩
      exact ((decodeRun_of_ok hready hf).2.1 i hi).trans ((decodeRun_of_ok hready' hf').2.1 i hi).symm
    · have hlow' (j : Nat) (hj : j < i) : ∃ v, decodedAt { s with mem := m } j = .ok v :=
        (hsame j (hj.trans hi)) ▸ hlow j hj
      cases (exec_decode_of_malformed hready hi hlow hd).symm.trans ht
      cases (exec_decode_of_malformed hready' hi hlow' ((hsame i hi).trans hd)).symm.trans hu
      exact ⟨rfl, rfl, rfl, rfl, nofun⟩
  · have hready' : ¬decodeReady { s with mem := m } = true := hready
    obtain rfl := eq_of_exec_decode_of_not_ready hready ht
    obtain rfl := eq_of_exec_decode_of_not_ready hready' hu
    refine ⟨rfl, rfl, rfl, rfl, fun herr => ?_⟩
    rw [finish_err] at herr
    split at herr <;> cases herr

/-! ### The round trip -/

/-- Pixels with the same four bytes are the same, wherever they are. -/
theorem Memory.readPixel_eq_of_read_eq {m n : Memory} {a b : Nat} (h : ∀ k < 4, m.read (a + k) = n.read (b + k)) :
    m.readPixel a = n.readPixel b := by
  have h0 : m.read a = n.read b := h 0 (by decide)
  rw [readPixel, readPixel, h0, h 1 (by decide), h 2 (by decide), h 3 (by decide)]

/-- Every pixel of a round trip decodes to the payload byte that was encoded in it (R100). -/
theorem RoundTripSetup.decodedAt_eq {s t u : State} (h : RoundTripSetup s t u) {i : Nat} (hi : i < pixelCount s) :
    decodedAt u i = .ok (payloadByte s i) := by
  obtain ⟨hexec, herr, -, -, hmem⟩ := h
  have hbytes (k : Nat) (hk : k < 4) := hmem (4 * i + k) (by omega)
  have hlock : u.mem.readPixel (u.lockBase.toNat + 4 * i) = t.mem.readPixel (s.lockBase.toNat + 4 * i) :=
    Memory.readPixel_eq_of_read_eq fun k hk => by simpa only [Nat.add_assoc] using (hbytes k hk).1
  have hkey : u.mem.readPixel (u.keyBase.toNat + 4 * i) = s.mem.readPixel (s.coverBase.toNat + 4 * i) :=
    Memory.readPixel_eq_of_read_eq fun k hk => by simpa only [Nat.add_assoc] using (hbytes k hk).2
  change decPixel (u.mem.readPixel (u.lockBase.toNat + 4 * i)) (u.mem.readPixel (u.keyBase.toNat + 4 * i)) = _
  rw [hlock, hkey, readPixel_of_exec_encode hexec herr hi]
  exact decodingInvertsEncodingOfAPixel _ _

/-- The neutral bytes from LEN on are 0, so a byte that is not 0 is one of the payload. -/
theorem lt_len_of_payloadByte_ne_zero {s : State} {i : Nat} (h : payloadByte s i ≠ 0) : i < s.len.toNat :=
  Nat.lt_of_not_le fun hle => h (payloadByte_of_le hle)

/-- Settles O28: DECODE recovers the payload bytes and the neutral bytes after them, and trims the zeros at the end. -/
theorem roundTripLosesTrailingZeros : Obligations.RoundTripLosesTrailingZeros := by
  intro s t u h
  have ⟨hexec, herr, hready, hdim, _⟩ := h
  have hcount : pixelCount u = pixelCount s := by rw [pixelCount, pixelCount, hdim]
  have hfits : s.len.toNat ≤ pixelCount u := hcount ▸ (encodeReady_iff.1 (ready_of_exec_encode hexec herr).1).1
  obtain ⟨v, hv, hframe, hbytes, hle, hzero, hlast, -⟩ :=
    decodeRecoversTheFrame u (payloadByte s) hready fun i hi => h.decodedAt_eq (hcount ▸ hi)
  have hlastByte (hne : v.outLen ≠ 0) : v.outLen.toNat - 1 < s.len.toNat :=
    lt_len_of_payloadByte_ne_zero (hlast hne)
  have hpos (hne : v.outLen ≠ 0) : v.outLen.toNat ≠ 0 := fun h0 => hne (BitVec.eq_of_toNat_eq h0)
  have hlen : v.outLen.toNat ≤ s.len.toNat := by
    by_cases hne : v.outLen = 0
    · simp [hne]
    · have := hlastByte hne
      omega
  refine ⟨v, hv, congrArg State.err hframe, hlen, fun i hi => ?_, fun i hi hlt => ?_, fun hne => ?_, fun hall => ?_⟩
  · rw [hbytes i (hi.trans_le hle), payloadByte_of_lt (hi.trans_le hlen)]
  · rw [← payloadByte_of_lt hlt]
    exact hzero i hi (hlt.trans_le hfits)
  · rw [← payloadByte_of_lt (hlastByte hne)]
    exact hlast hne
  · by_contra hne
    refine hlast hne ?_
    rw [payloadByte_of_lt (hlastByte hne)]
    exact hall _ (hlastByte hne)

/-- Settles O27: nothing is trimmed of a payload whose last byte is not 0. -/
theorem roundTripRecoversThePayload : Obligations.RoundTripRecoversThePayload := by
  intro s t u h hend
  obtain ⟨v, hv, herr, hle, hbytes, hzero, -, -⟩ := roundTripLosesTrailingZeros s t u h
  have hlen : v.outLen.toNat = s.len.toNat := by
    by_contra hne
    rcases hend with hempty | hlast
    · omega
    · exact hlast (hzero _ (by omega) (by omega))
  exact ⟨v, hv, herr, BitVec.eq_of_toNat_eq hlen, fun i hi => hbytes i (hlen ▸ hi)⟩

end Sys2Proof.Machine
end

section
/-! PROOFS. Control: the host's register writes, acceptance and completion, and what holds from the one to the other
(spec/43_control.md R113 to R121, R125, R127, R128, R130). -/

namespace Sys2Proof.Machine

/-! ### BUSY -/

theorem Completes.phase_eq {i : Instr} {s t : State} (h : Completes i s t) : t.phase = .idle := by rw [h.frame]

theorem phase_of_resetBlock {s t : State} (h : resetBlock s = .next t) : t.phase = .idle := by
  rw [eq_of_resetBlock h]
  rfl

/-- What a host operation does to BUSY: nothing, an acceptance raises it, or a soft reset clears it (R114, R153). -/
theorem HostEffect.phase_cases {op : HostOp} {s t : State} (h : HostEffect op s t) :
    t.phase = s.phase ∨
    (s.phase = .idle ∧ ∃ w : Word, op = .wr .word Reg.cmd.offset w ∧ t.latch = w) ∨
    (t.phase = .idle ∧ ∃ v : Word, op = .wr .word Reg.ctrl.offset v ∧ v.getLsbD 1 = true) := by
  cases h with
  | view ht | operand _ ht => exact .inl (by rw [ht])
  | store | setIe | clear | lost => exact .inl rfl
  | accept w hp => exact .inr (.inl ⟨hp, w, rfl, rfl⟩)
  | softReset hv hr => exact .inr (.inr ⟨phase_of_resetBlock hr, _, rfl, hv⟩)

/-- Settles O54, from what the action of the step does to BUSY. -/
theorem busyRisesAndFallsOnlyByCommands : Obligations.BusyRisesAndFallsOnlyByCommands := by
  intro s t hstep
  rcases step_cases hstep with ⟨op, hact, hop⟩ | ⟨hact, hexec⟩ | ⟨hact, hreset⟩ | ⟨-, rfl⟩
  · have hphase := (hostEffect_of_hostOp hop).phase_cases
    rw [turnTaken_phase] at hphase
    rcases hphase with hsame | ⟨hp, w, rfl, hlatch⟩ | ⟨hidle, v, rfl, hv⟩
    · simp +contextual [hsame]
    · exact ⟨fun _ _ => ⟨w, hact, hlatch⟩, by simp [hp]⟩
    · exact ⟨by simp [hidle], fun _ _ => .inr (.inr ⟨v, hact, hv⟩)⟩
  · have hidle := (completes_of_exec hexec).phase_eq
    exact ⟨by simp [hidle], fun _ _ => .inl hact⟩
  · have hidle := phase_of_resetBlock hreset
    exact ⟨by simp [hidle], fun _ _ => .inr (.inl hact)⟩
  · simp +contextual

/-! ### From acceptance to completion -/

/-- The completion step runs the latched word's command (R115). -/
theorem step_of_completion {s : State} (h : nextAction s = .completion) :
    step s = exec (running s) (turnTaken s) := by
  rw [step_eq_effect, h, Action.effect, running_turnTaken]

theorem phase_idle_of_completion {s t : State} (hact : nextAction s = .completion) (h : step s = .next t) :
    t.phase = .idle :=
  (completes_of_exec ((step_of_completion hact).symm.trans h)).phase_eq

@[simp] theorem turnTaken_memTop (s : State) : (turnTaken s).memTop = s.memTop := by rw [turnTaken_eq]

theorem memTop_of_resetBlock {s t : State} (h : resetBlock s = .next t) : t.memTop = s.memTop := by
  rw [eq_of_resetBlock h, blockReset_memTop, abandon_eq]

theorem HostEffect.memTop_eq {op : HostOp} {s t : State} (h : HostEffect op s t) : t.memTop = s.memTop := by
  cases h with
  | view ht | operand _ ht => rw [ht]
  | store | setIe | clear | accept | lost => rfl
  | softReset _ hr => exact memTop_of_resetBlock hr

/-- No step changes the size of the memory (R8). -/
theorem memTop_of_step {s t : State} (h : step s = .next t) : t.memTop = s.memTop := by
  rw [← turnTaken_memTop s]
  rcases step_cases h with ⟨op, -, hop⟩ | ⟨-, hexec⟩ | ⟨-, hreset⟩ | ⟨-, rfl⟩
  · exact (hostEffect_of_hostOp hop).memTop_eq
  · rw [(completes_of_exec hexec).frame]
  · exact memTop_of_resetBlock hreset
  · rfl

/-- `BusyFrame s t`: of the block, `t` differs from `s` in IE, DONE and OVR alone (R127, R130). -/
def BusyFrame (s t : State) : Prop :=
  t = { s with
    ie := t.ie, done := t.done, ovr := t.ovr, mem := t.mem, script := t.script, lastRead := t.lastRead, sched := t.sched }

theorem BusyFrame.of_turnTaken {s t : State} (h : BusyFrame (turnTaken s) t) : BusyFrame s t := by
  unfold BusyFrame at h
  rwa [turnTaken_eq] at h

/-- A host operation that finds BUSY 1 and leaves it 1 writes no operand, no latch and no result (R127). -/
theorem HostEffect.busyFrame {op : HostOp} {s t : State} (h : HostEffect op s t) (hs : s.phase = .busy)
    (ht : t.phase = .busy) : BusyFrame s t := by
  cases h with
  | view hview =>
    rw [hview]
    rfl
  | store | setIe | clear | lost => rfl
  | accept _ hp | operand hp => simp [hp] at hs
  | softReset _ hr => simp [phase_of_resetBlock hr] at ht

/-- A step that finds BUSY 1 and leaves it 1 writes no operand, no latch and no result (R127, R130). -/
theorem busyFrame_of_step {s t : State} (h : step s = .next t) (hs : s.phase = .busy) (ht : t.phase = .busy) :
    BusyFrame s t := by
  apply BusyFrame.of_turnTaken
  rw [← turnTaken_phase] at hs
  rcases step_cases h with ⟨op, -, hop⟩ | ⟨-, hexec⟩ | ⟨-, hreset⟩ | ⟨-, rfl⟩
  · exact (hostEffect_of_hostOp hop).busyFrame hs ht
  · simp [(completes_of_exec hexec).phase_eq] at ht
  · simp [phase_of_resetBlock hreset] at ht
  · rfl

/-- Settles O58: the frame of a step from BUSY to BUSY; DONE cannot rise, since that takes a completion. -/
theorem operandsAndResultsStayWhileBusy : Obligations.OperandsAndResultsStayWhileBusy := by
  intro s t hstep
  refine ⟨memTop_of_step hstep, fun hs ht => ⟨busyFrame_of_step hstep hs ht, fun hdone => ?_⟩⟩
  refine Bool.eq_false_iff.2 fun hrisen => ?_
  have hidle := phase_idle_of_completion ((doneRisesOnlyByCompletion s t hstep).1 hdone hrisen) hstep
  simp [hidle] at ht

/-! ### The actions of a step -/

/-- Settles O33: a step is the effect of its action, and taking the turn leaves the running command. -/
theorem eachStepIsOneAction : Obligations.EachStepIsOneAction := by
  intro s
  rw [step_eq_effect]
  cases nextAction s with
  | host op => rfl
  | completion => rw [Action.effect, running_turnTaken]
  | reset => rfl
  | nothing => rfl

/-- The engine's turn while BUSY is the completion step (R115). -/
theorem engineTurn_of_busy {s : State} (h : s.phase = .busy) : engineTurn s = exec (running s) s := by
  simp [engineTurn, h]

/-- Where no turn is laid down while BUSY, the completion step is taken (log 6). -/
theorem defaultTurn_of_busy {s : State} (h : s.phase = .busy) : defaultTurn s = exec (running s) s := by
  simp [defaultTurn, h]

/-- `withFetchWord` takes all 32 bits of the word (R63). -/
theorem withFetchWord_toNat (w : Word) (s : State) : s.withFetchWord 32 w.toNat = placeCommand w s := by
  rw [State.withFetchWord, Nat.mod_eq_of_lt w.isLt, BitVec.ofNat_toNat, BitVec.setWidth_eq]

/-- Settles O34: the engine's turn and the default turn both run the latched word. -/
theorem stepRunsTheLatchedCommand : Obligations.StepRunsTheLatchedCommand := by
  refine ⟨fun s i rest hp hi hs => ?_, fun s i hp hi hs => ?_, fun s w => ?_⟩
  · rw [step, hs, ← hi]
    exact engineTurn_of_busy (s := { s with sched := rest }) hp
  · rw [step, hs, ← hi]
    exact defaultTurn_of_busy hp
  · rw [withFetchWord_toNat, step_placeCommand]

/-- Settles O11: the completion of NOP is `complete`, whose error code, NONE, is 0. -/
theorem nopCompletes : Obligations.NopCompletes := ⟨rfl, fun _ => rfl⟩

/-! ### Register writes -/

/-- A CMD write while idle is an acceptance (R114). -/
theorem writeCmd_of_idle {s : State} (h : s.phase = .idle) (w : Word) : writeCmd w s = accept w s := by
  simp [writeCmd, busy_eq_false.2 h]

/-- A CMD write while BUSY is an overrun (R116). -/
theorem writeCmd_of_busy {s : State} (h : s.phase = .busy) (w : Word) : writeCmd w s = overrun s := by
  simp [writeCmd, busy_eq_true.2 h]

/-- Every write that waits for BUSY to fall is lost while BUSY is 1 (R116, R117). -/
theorem regWrite_of_busy {r : Reg} (hr : r ∈ busyGated) {s : State} (hp : s.phase = .busy) (v : Word) :
    regWrite r v s = .next (overrun s) := by
  cases r with
  | cmd => exact congrArg _ (writeCmd_of_busy hp v)
  | imgDim | keyDim | len | coverBase | payloadBase | lockBase | keyBase | outBase | pixA | pixB | byteIn =>
    exact congrArg _ (gated_busy hp)
  | id | ctrl | status | capacity | outLen | errIdx | errInfo | res => exact absurd hr (by decide)

/-- Settles O35: an idle CMD write is `accept`. -/
theorem cmdWriteWhileIdleIsAccepted : Obligations.CmdWriteWhileIdleIsAccepted := fun s w hp =>
  (hostOp_wr_offset .cmd w s).trans (congrArg _ (writeCmd_of_idle hp w))

/-- Settles O36: CMD is one of the registers whose writes are lost while BUSY. -/
theorem cmdWriteWhileBusyIsDiscarded : Obligations.CmdWriteWhileBusyIsDiscarded := fun s w hp =>
  (hostOp_wr_offset .cmd w s).trans (regWrite_of_busy (by decide) hp w)

/-- A busy-gated write while idle leaves the state it is the gate of (R117). -/
theorem hostOp_wr_gated_of_idle (r : Reg) {v : Word} {s t : State} (hw : regWrite r v s = .next (gated s t))
    (hp : s.phase = .idle) : hostOp (.wr .word r.offset v) s = .next t := by
  rw [hostOp_wr_offset, hw, gated_idle hp]

/-- Settles O37: while idle the write goes through its gate, and the listed offsets are those of the gated registers. -/
theorem busyGatedWrites : Obligations.BusyGatedWrites := by
  constructor
  · intro s v hp
    rw [← BitVec.setWidth_eq_extractLsb' (by decide)]
    exact ⟨hostOp_wr_gated_of_idle .imgDim rfl hp, hostOp_wr_gated_of_idle .keyDim rfl hp,
      hostOp_wr_gated_of_idle .len rfl hp, hostOp_wr_gated_of_idle .coverBase rfl hp,
      hostOp_wr_gated_of_idle .payloadBase rfl hp, hostOp_wr_gated_of_idle .lockBase rfl hp,
      hostOp_wr_gated_of_idle .keyBase rfl hp, hostOp_wr_gated_of_idle .outBase rfl hp,
      hostOp_wr_gated_of_idle .pixA rfl hp, hostOp_wr_gated_of_idle .pixB rfl hp,
      hostOp_wr_gated_of_idle .byteIn rfl hp⟩
  · intro s off v hp hoff
    change off ∈ busyGated.tail.map Reg.offset at hoff
    obtain ⟨r, hr, rfl⟩ := List.mem_map.1 hoff
    rw [hostOp_wr_offset]
    exact regWrite_of_busy (List.mem_of_mem_tail hr) hp v

/-- The read-only registers (R118). -/
def readOnly : List Reg := [.id, .capacity, .outLen, .errIdx, .errInfo, .res]

theorem regWrite_readOnly {r : Reg} (hr : r ∈ readOnly) (v : Word) (s : State) : regWrite r v s = .next s := by
  cases r with
  | id | capacity | outLen | errIdx | errInfo | res => rfl
  | ctrl | status | cmd | imgDim | keyDim | len | coverBase | payloadBase | lockBase | keyBase | outBase | pixA | pixB
  | byteIn => exact absurd hr (by decide)

theorem windowWrite_reserved {off : Word} (h : 0x050 ≤ off.toNat) (v : Word) (s : State) :
    windowWrite off v s = .next s := by
  simp [windowWrite, regAt_eq_none_of_reserved h]

/-- A supported write is the write of the slot (R113). -/
theorem hostOp_wr_word {off : Word} (hlt : off.toNat < 0x100) (hal : off.toNat % 4 = 0) (v : Word) (s : State) :
    hostOp (.wr .word off v) s = windowWrite off v s :=
  if_pos (supported_word_iff.2 ⟨hlt, hal⟩)

/-- Settles O38: the listed offsets are those of the read-only registers, and no register is at a reserved slot. -/
theorem writesWithoutEffect : Obligations.WritesWithoutEffect := by
  rintro s off v (hoff | ⟨hlo, hhi, hal⟩)
  · change off ∈ readOnly.map Reg.offset at hoff
    obtain ⟨r, hr, rfl⟩ := List.mem_map.1 hoff
    rw [hostOp_wr_offset, regWrite_readOnly hr]
  · rw [hostOp_wr_word (by omega) hal, windowWrite_reserved hlo]

/-- Write 1 to clear, written as a choice. -/
theorem and_not_eq_ite (b c : Bool) : (b && !c) = if c = true then false else b := by
  cases c <;> simp

/-- Settles O39: a STATUS write is `clearStatus`, and without DONE there is no IRQ. -/
theorem statusWriteClears : Obligations.StatusWriteClears := by
  intro s v
  have hwrite : hostOp (.wr .word 0x008 v) s = .next (clearStatus v s) := hostOp_wr_offset .status v s
  refine ⟨?_, fun t ht hv => ?_⟩
  · rw [hwrite, clearStatus, and_not_eq_ite, and_not_eq_ite]
  · obtain rfl := Host.Outcome.next.inj (hwrite.symm.trans ht)
    simp [State.irq, hv]

/-- Settles O40: bit 1 of the value decides between the soft reset and the store. -/
theorem ctrlWriteSetsIeOrResets : Obligations.CtrlWriteSetsIeOrResets := by
  intro s v
  have hwrite : hostOp (.wr .word 0x004 v) s = writeCtrl v s := hostOp_wr_offset .ctrl v s
  rw [hwrite]
  refine ⟨fun hv => if_neg (Bool.eq_false_iff.1 hv), fun hv => ?_⟩
  have hreset : writeCtrl v s = resetBlock s := if_pos hv
  refine ⟨hreset, fun t ht => ?_⟩
  rw [eq_of_resetBlock (hreset.symm.trans ht), blockReset_ie]

theorem supported_iff {width : Width} {off : Word} :
    supported width off = true ↔ width = .word ∧ off.toNat < 0x100 ∧ off.toNat % 4 = 0 := by
  simp [supported, and_assoc]

/-- Settles O43: each of the three breaches fails the test of R128. -/
theorem unsupportedAccessIsRefused : Obligations.UnsupportedAccessIsRefused := by
  intro s width off v hbad
  have hno : ¬supported width off = true := by
    rw [supported_iff]
    rintro ⟨hword, hlt, hal⟩
    rcases hbad with hwidth | hmis | hpast
    · exact hwidth hword
    · exact hmis hal
    · omega
  exact ⟨if_neg hno, if_neg hno⟩

/-! ### The completion step is reached -/

theorem HostEffect.sched_eq {op : HostOp} {s t : State} (h : HostEffect op s t) : t.sched = s.sched := by
  cases h with
  | view ht | operand _ ht => rw [ht]
  | store | setIe | clear | accept | lost => rfl
  | softReset _ hr => rw [eq_of_resetBlock hr, blockReset_sched, abandon_eq]

@[simp] theorem turnTaken_sched (s : State) : (turnTaken s).sched = s.sched.tail := by
  unfold turnTaken
  split <;> rfl

/-- Every step uses up one of the turns laid down (log 6). -/
theorem sched_of_step {s t : State} (h : step s = .next t) : t.sched = s.sched.tail := by
  rw [← turnTaken_sched]
  rcases step_cases h with ⟨op, -, hop⟩ | ⟨-, hexec⟩ | ⟨-, hreset⟩ | ⟨-, rfl⟩
  · exact (hostEffect_of_hostOp hop).sched_eq
  · rw [(completes_of_exec hexec).frame]
  · rw [eq_of_resetBlock hreset, blockReset_sched, abandon_eq]
  · rfl

/-- Where the turns laid down are used up, a running command completes (log 6). -/
theorem nextAction_of_sched_nil {s : State} (hp : s.phase = .busy) (hs : s.sched = []) :
    nextAction s = .completion := by
  simp [nextAction, hs, busy_eq_true.2 hp]

/-- Only a reset or an operation of the host's own stops a run that has not come to its completion step. -/
theorem host_or_resets_of_not_stepSafe {s : State} (hact : nextAction s ≠ .completion) (h : ¬StepSafe s) :
    (∃ op, nextAction s = .host op) ∨ nextResets s := by
  cases hcase : nextAction s with
  | host op => exact .inl ⟨op, rfl⟩
  | completion => exact absurd hcase hact
  | reset => exact .inr (.inl hcase)
  | nothing => exact absurd ⟨_, by rw [step_eq_effect, hcase]; rfl⟩ h

/-- R125's premise: no reset comes in the first `n` steps while BUSY. -/
def NoResetWithin (n : Nat) (s : State) : Prop :=
  ∀ (k : Nat) (t : State), k ≤ n → Sys2Proof.core.run k s = .next t → t.phase = .busy → ¬nextResets t

theorem NoResetWithin.now {n : Nat} {s : State} (h : NoResetWithin n s) (hp : s.phase = .busy) : ¬nextResets s :=
  h 0 s (Nat.zero_le n) rfl hp

theorem NoResetWithin.after {n : Nat} {s t : State} (h : NoResetWithin (n + 1) s) (hstep : step s = .next t) :
    NoResetWithin n t := fun k u hk hrun =>
  h (k + 1) u (Nat.succ_le_succ hk) ((core_run_of_next k hstep).trans hrun)

/-- The completion step of `i` is reached in at most `n` steps, or the host first breaks a duty. -/
def ReachesCompletion (i : Instr) (n : Nat) (s : State) : Prop :=
  ∃ (k : Nat) (t : State), k ≤ n ∧ Sys2Proof.core.run k s = .next t ∧ t.phase = .busy ∧ running t = i ∧
    ((nextAction t = .completion ∧ step t = exec i (turnTaken t)) ∨ ∃ op, nextAction t = .host op ∧ ¬StepSafe t)

theorem ReachesCompletion.before {i : Instr} {n : Nat} {s t : State} (hstep : step s = .next t)
    (h : ReachesCompletion i n t) : ReachesCompletion i (n + 1) s := by
  obtain ⟨k, u, hk, hrun, hu⟩ := h
  exact ⟨k + 1, u, Nat.succ_le_succ hk, (core_run_of_next k hstep).trans hrun, hu⟩

theorem reachesCompletion_of_completion {s : State} (n : Nat) (hp : s.phase = .busy)
    (hact : nextAction s = .completion) : ReachesCompletion (running s) n s :=
  ⟨0, s, Nat.zero_le n, rfl, hp, rfl, .inl ⟨hact, step_of_completion hact⟩⟩

/-- A step that is neither the completion step nor a reset leaves the command running. -/
theorem stays_busy_of_step {s t : State} (hstep : step s = .next t) (hp : s.phase = .busy)
    (hact : nextAction s ≠ .completion) (hreset : ¬nextResets s) : t.phase = .busy ∧ running t = running s := by
  have ht : t.phase = .busy := (phase_cases t).resolve_left fun hidle =>
    ((busyRisesAndFallsOnlyByCommands s t hstep).2 hp hidle).elim hact hreset
  refine ⟨ht, ?_⟩
  rw [busyFrame_of_step hstep hp ht]
  rfl

/-- With no reset, the running command comes to its completion step: every step before it uses up one of the `n` turns
laid down. -/
theorem reachesCompletion {n : Nat} {s : State} (hn : s.sched.length = n) (hp : s.phase = .busy)
    (hreset : NoResetWithin n s) : ReachesCompletion (running s) n s := by
  induction n generalizing s with
  | zero => exact reachesCompletion_of_completion 0 hp (nextAction_of_sched_nil hp (List.length_eq_zero_iff.1 hn))
  | succ n ih =>
    by_cases hact : nextAction s = .completion
    · exact reachesCompletion_of_completion _ hp hact
    by_cases hsafe : StepSafe s
    · obtain ⟨t, hstep⟩ := hsafe
      obtain ⟨ht, hrun⟩ := stays_busy_of_step hstep hp hact (hreset.now hp)
      have hlength : t.sched.length = n := by simp [sched_of_step hstep, hn]
      exact hrun ▸ (ih hlength ht (hreset.after hstep)).before hstep
    · obtain ⟨op, hop⟩ := (host_or_resets_of_not_stepSafe hact hsafe).resolve_right (hreset.now hp)
      exact ⟨0, s, Nat.zero_le _, rfl, hp, rfl, .inr ⟨op, hop, hsafe⟩⟩

theorem core_run_one (s : State) : Sys2Proof.core.run 1 s = step s := by
  cases h : step s with
  | next t => exact core_run_of_next 0 h
  | fault r => exact core_run_of_fault 0 h
  | refused r => exact core_run_of_refused 0 h

/-- At some step no later than the `n`-th, the run has gone idle or has stopped. -/
def IdleWithin (n : Nat) (s : State) : Prop :=
  ∃ k, 0 < k ∧ k ≤ n ∧ ∀ t : State, Sys2Proof.core.run k s = .next t → t.phase = .idle

theorem idleWithin_of_step (n : Nat) {s : State} (h : ∀ t, step s = .next t → t.phase = .idle) :
    IdleWithin (n + 1) s :=
  ⟨1, Nat.one_pos, Nat.le_add_left 1 n, fun t hrun => h t ((core_run_one s).symm.trans hrun)⟩

theorem IdleWithin.before {n : Nat} {s t : State} (hstep : step s = .next t) (h : IdleWithin n t) :
    IdleWithin (n + 1) s := by
  obtain ⟨k, -, hk, hidle⟩ := h
  exact ⟨k + 1, Nat.succ_pos k, Nat.succ_le_succ hk, fun u hrun =>
    hidle u ((core_run_of_next k hstep).symm.trans hrun)⟩

/-- Resets or not, BUSY falls at the latest one step past the `n` turns laid down, unless the run stops. -/
theorem idleWithin {n : Nat} {s : State} (hn : s.sched.length = n) (hp : s.phase = .busy) : IdleWithin (n + 1) s := by
  induction n generalizing s with
  | zero =>
    have hact := nextAction_of_sched_nil hp (List.length_eq_zero_iff.1 hn)
    exact idleWithin_of_step 0 fun t => phase_idle_of_completion hact
  | succ n ih =>
    by_cases hbusy : ∃ t, step s = .next t ∧ t.phase = .busy
    · obtain ⟨t, hstep, ht⟩ := hbusy
      have hlength : t.sched.length = n := by simp [sched_of_step hstep, hn]
      exact (ih hlength ht).before hstep
    · exact idleWithin_of_step _ fun t hstep => (phase_cases t).resolve_right fun ht => hbusy ⟨t, hstep, ht⟩

/-- Settles O59, by induction on the turns laid down. -/
theorem completionIsEventuallyTaken : Obligations.CompletionIsEventuallyTaken := fun _ hp =>
  ⟨reachesCompletion rfl hp, idleWithin rfl hp⟩

end Sys2Proof.Machine
end

section
/-! PROOFS. Errors: the check that fails first decides the code, an error is precise, and a command that failed fails
again alike; and the interrupt line (spec/60_exceptions.md R131 to R136, R139, R140, R142, R143). -/

namespace Sys2Proof.Machine

/-! ### The checks of a frame command, in their order -/

theorem Buffer.inRange_eq_false_iff {x : Buffer} {n : Nat} :
    x.inRange n = false ↔ x.size ≠ 0 ∧ n < x.base + x.size := by
  rw [← Bool.not_eq_true, Buffer.inRange_cases, not_or, Nat.not_le]

theorem encodeInRange_eq_false_iff {s : State} : encodeInRange s = false ↔
    (coverBuffer s).inRange s.memBytes = false ∨ (lockBuffer s).inRange s.memBytes = false ∨
      (payloadBuffer s).inRange s.memBytes = false := by
  simp only [encodeInRange, Bool.and_eq_false_iff, or_assoc]

theorem decodeInRange_eq_false_iff {s : State} : decodeInRange s = false ↔
    (lockBuffer s).inRange s.memBytes = false ∨ (keyBuffer s).inRange s.memBytes = false ∨
      (outBuffer s).inRange s.memBytes = false := by
  simp only [decodeInRange, Bool.and_eq_false_iff, or_assoc]

theorem dimensionsAgree_eq_false_iff {s : State} : dimensionsAgree s = false ↔
    dimWidth s.imgDim ≠ dimWidth s.keyDim ∨ dimHeight s.imgDim ≠ dimHeight s.keyDim := by
  rw [← Bool.not_eq_true, dimensionsAgree_iff, not_and_or]

/-- The capacity check of ENCODE comes first (R89, R132). -/
theorem exec_encode_of_over_capacity {s : State} (hlen : pixelCount s < s.len.toNat) :
    exec .encode s = .next (finish .capacityExceeded 0 0 s) := if_pos hlen

/-- The range check of ENCODE comes after the capacity check (R89, R135). -/
theorem exec_encode_of_out_of_range {s : State} (hlen : s.len.toNat ≤ pixelCount s) (hrange : encodeInRange s = false) :
    exec .encode s = .next (finish .rangeFault 0 0 s) := by
  change execEncode s = _
  simp [execEncode, Nat.not_lt.2 hlen, hrange]

/-- The dimension check of DECODE comes first (R103, R133). -/
theorem exec_decode_of_dimensions_differ {s : State} (hdim : dimensionsAgree s = false) :
    exec .decode s = .next (finish .dimensionMismatch 0 0 { s with outLen := 0 }) := by
  change execDecode s = _
  simp [execDecode, hdim]

/-- The range check of DECODE comes after the dimension check (R103, R135). -/
theorem exec_decode_of_out_of_range {s : State} (hdim : dimensionsAgree s = true) (hrange : decodeInRange s = false) :
    exec .decode s = .next (finish .rangeFault 0 0 { s with outLen := 0 }) := by
  change execDecode s = _
  simp [execDecode, hdim, hrange]

/-- Settles O16: CAPACITY is the pixel count, which the first check of ENCODE compares with LEN. -/
theorem encodeChecksCapacityFirst : Obligations.EncodeChecksCapacityFirst := by
  refine ⟨rfl, fun s hlen => exec_encode_of_over_capacity ?_⟩
  rwa [windowRead_capacity, capacityWord_toNat] at hlen

/-- Settles O23: the two fields of the dimension registers are what the first check of DECODE compares. -/
theorem decodeChecksDimensionsFirst : Obligations.DecodeChecksDimensionsFirst :=
  ⟨rfl, fun _ hdim => exec_decode_of_dimensions_differ (dimensionsAgree_eq_false_iff.2 hdim)⟩

/-- Settles O17: each inequality is that one buffer of the command is out of range. -/
theorem frameCommandsCheckRanges : Obligations.FrameCommandsCheckRanges := by
  refine ⟨rfl, fun s hlen hout => ?_, fun s hdim hout => ?_⟩
  · refine exec_encode_of_out_of_range hlen (encodeInRange_eq_false_iff.2 ?_)
    simp only [Buffer.inRange_eq_false_iff]
    exact hout
  · have hagree : dimensionsAgree s = true := dimensionsAgree_iff.2 ⟨by rw [hdim], by rw [hdim]⟩
    refine exec_decode_of_out_of_range hagree (decodeInRange_eq_false_iff.2 ?_)
    simp only [Buffer.inRange_eq_false_iff]
    exact hout

/-- Settles O12: a word outside the map decodes to ILLEGAL, whose completion raises its code and does nothing else. -/
theorem illegalWordCompletes : Obligations.IllegalWordCompletes := by
  intro w s hw
  obtain ⟨-, -, -, -, -, -, hillegal⟩ := opcodeMapDecodes
  rw [hillegal w hw]
  exact ⟨rfl, rfl, rfl⟩

/-! ### Which command raises which code -/

/-- The commands that can end with a code (R131). -/
def ErrCode.RaisedBy : ErrCode → Instr → Prop
  | .none, i => ∀ w, i ≠ .illegal w
  | .capacityExceeded, i => i = .encode
  | .dimensionMismatch, i => i = .decode
  | .malformedPayload, i => i = .decpx ∨ i = .decode
  | .rangeFault, i => i = .encode ∨ i = .decode
  | .illegalCommand, i => ∃ w, i = .illegal w

theorem Completes.err_raisedBy {i : Instr} {s t : State} (h : Completes i s t) : t.err.RaisedBy i := by
  cases h with
  | nop | digits | encpx | decpx | encode | decode => exact nofun
  | decpxMalformed => exact .inl rfl
  | decodeMalformed => exact .inr rfl
  | illegal w => exact ⟨w, rfl⟩
  | encodeFails he =>
    rcases he with rfl | rfl
    · rfl
    · exact .inl rfl
  | decodeFails he =>
    rcases he with rfl | rfl
    · rfl
    · exact .inr rfl

/-- Settles O30: no constructor has code 6 or 7, and each code's commands are read off its completions. -/
theorem errorCodesAndTheirCommands : Obligations.ErrorCodesAndTheirCommands := by
  refine ⟨rfl, rfl, rfl, rfl, rfl, rfl, fun e => by cases e <;> decide, fun i s t hexec => ?_⟩
  have hraised := (completes_of_exec hexec).err_raisedBy
  have raisedBy {e : ErrCode} (he : t.err = e) : e.RaisedBy i := he ▸ hraised
  refine ⟨raisedBy, raisedBy, raisedBy, raisedBy, raisedBy, ?_⟩
  rintro ⟨w, rfl⟩
  cases hexec
  rfl

/-! ### Errors are precise -/

/-- An error found before any access leaves the memory as it was (R139). -/
theorem Completes.mem_eq_of_failed_check {i : Instr} {s t : State} (h : Completes i s t) (herr : t.err ≠ .none)
    (hmalformed : t.err ≠ .malformedPayload) : t.mem = s.mem := by
  cases h with
  | nop | digits | encpx | decpx | encode | decode => exact absurd rfl herr
  | decpxMalformed | decodeMalformed => exact absurd rfl hmalformed
  | encodeFails | decodeFails | illegal => rfl

/-- Settles O31: a failed check left the memory alone, and a malformed pixel of DECODE can cost the out range only. -/
theorem errorsArePrecise : Obligations.ErrorsArePrecise := by
  intro i s t hexec
  have h := completes_of_exec hexec
  refine ⟨h.phase_eq, h.done_eq, by rw [h.frame], ?_, fun hcode => ?_, ?_, ?_⟩
  · rintro herr rfl
    exact h.outLen_eq_zero_of_decode_failed herr
  · have hfailed : t.err ≠ .none ∧ t.err ≠ .malformedPayload := by
      rcases hcode with hc | hc | hc | hc <;> simp [hc]
    exact h.mem_eq_of_failed_check hfailed.1 hfailed.2
  · rintro - rfl
    exact h.mem_eq nofun nofun
  · rintro - rfl a ha
    exact h.read_eq_of_not_writesByte (by simp [ha])

/-! ### A retry fails alike -/

/-- Accepted again in the state `t` that it left, the command `i` ends with the error of `t`, recorded alike (R140). -/
def FailsAgain (i : Instr) (t : State) : Prop :=
  ∀ w : Word, ∃ u : State, exec i (accept w t) = .next u ∧
    u.err = t.err ∧ u.errIdx = t.errIdx ∧ u.errInfo = t.errInfo

/-- DECPX does not write the two pixels it read. -/
theorem failsAgain_decpx {s t : State} (h : Completes .decpx s t) (herr : t.err ≠ .none) : FailsAgain .decpx t := by
  cases h with
  | decpx => exact absurd rfl herr
  | decpxMalformed hd => exact fun w => ⟨_, exec_decpx_of_malformed hd, rfl, rfl, rfl⟩

/-- The check of ENCODE that failed reads operands only, and fails again. -/
theorem failsAgain_encode {s t : State} (h : exec .encode s = .next t) (herr : t.err ≠ .none) :
    FailsAgain .encode t := by
  rcases execEncode_cases s with ⟨hlen, he⟩ | ⟨hlen, hrange, he⟩ | ⟨-, -, -, he⟩ | ⟨-, he⟩ <;> cases he.symm.trans h
  · exact fun w => ⟨_, exec_encode_of_over_capacity hlen, rfl, rfl, rfl⟩
  · exact fun w => ⟨_, exec_encode_of_out_of_range hlen hrange, rfl, rfl, rfl⟩
  · exact absurd rfl herr

/-- A DECODE within R54 writes no byte of the lock or the key. -/
theorem not_writesByte_of_decodeKeepsApart {s : State} {a : Nat} (hapart : decodeKeepsApart s = true)
    (ha : (lockBuffer s).holds a = true ∨ (keyBuffer s).holds a = true) : ¬WritesByte .decode s a := fun hw =>
  not_decodeKeepsApart_iff.2 ⟨a, writesByte_decode.1 hw, ha⟩ hapart

/-- A completion leaves the operands that DECODE checks. -/
theorem Completes.decodeReady_accept {i : Instr} {s t : State} (h : Completes i s t) (w : Word) :
    decodeReady (accept w t) = decodeReady s := by
  rw [h.frame]
  rfl

theorem Completes.pixelCount_accept {i : Instr} {s t : State} (h : Completes i s t) (w : Word) :
    pixelCount (accept w t) = pixelCount s := by
  rw [h.frame]
  rfl

/-- Every pixel decodes after a DECODE as before it. -/
theorem Completes.decodedAt_accept {s t : State} (h : Completes .decode s t) (w : Word)
    (hapart : decodeKeepsApart s = true) {i : Nat} (hi : i < pixelCount s) :
    decodedAt (accept w t) i = decodedAt s i := by
  have hframe : decodedAt (accept w t) i = decodedAt { s with mem := t.mem } i := by
    rw [h.frame]
    rfl
  have hkept {a : Nat} (ha : (lockBuffer s).holds a = true ∨ (keyBuffer s).holds a = true) :
      s.mem.read a = t.mem.read a :=
    (h.read_eq_of_not_writesByte (not_writesByte_of_decodeKeepsApart hapart ha)).symm
  refine hframe.trans (decodedAt_congr fun k hk => ⟨hkept (.inl ?_), hkept (.inr ?_)⟩) <;>
  · rw [Buffer.holds_iff]
    dsimp
    omega

/-- A DECODE that met a malformed pixel meets it again: what it wrote and freed is apart from the lock and the key. -/
theorem failsAgain_decode_of_ready {s t : State} (hready : decodeReady s = true) (h : exec .decode s = .next t)
    (herr : t.err ≠ .none) : FailsAgain .decode t := by
  have hc := completes_of_exec h
  rcases frame_decodes_or_malformed hready with ⟨f, hf⟩ | ⟨i, d, hi, hd, hlow⟩
  · cases (exec_decode_of_ok hready hf).symm.trans h
    exact absurd rfl herr
  · intro w
    have hsame {j : Nat} (hj : j < pixelCount s) : decodedAt (accept w t) j = decodedAt s j :=
      hc.decodedAt_accept w (decodeReady_iff.1 hready).2.2 hj
    have hagain := exec_decode_of_malformed ((hc.decodeReady_accept w).trans hready)
      (hi.trans_eq (hc.pixelCount_accept w).symm) (fun j hj => hsame (hj.trans hi) ▸ hlow j hj) ((hsame hi).trans hd)
    cases (exec_decode_of_malformed hready hi hlow hd).symm.trans h
    exact ⟨_, hagain, rfl, rfl, rfl⟩

theorem failsAgain_decode {s t : State} (h : exec .decode s = .next t) (herr : t.err ≠ .none) :
    FailsAgain .decode t := by
  rcases execDecode_cases s with ⟨hdim, he⟩ | ⟨hdim, hrange, he⟩ | ⟨-, -, -, he⟩ | ⟨hready, -⟩
  · cases he.symm.trans h
    exact fun w => ⟨_, exec_decode_of_dimensions_differ hdim, rfl, rfl, rfl⟩
  · cases he.symm.trans h
    exact fun w => ⟨_, exec_decode_of_out_of_range hdim hrange, rfl, rfl, rfl⟩
  · cases he.symm.trans h
  · exact failsAgain_decode_of_ready hready h herr

/-- Settles O32, command by command: what made it fail is still there. -/
theorem retryGivesTheSameError : Obligations.RetryGivesTheSameError := by
  intro i s t w hexec herr
  cases i with
  | nop | digits | encpx =>
    cases hexec
    exact absurd rfl herr
  | decpx => exact failsAgain_decpx (completes_of_exec hexec) herr w
  | encode => exact failsAgain_encode hexec herr w
  | decode => exact failsAgain_decode hexec herr w
  | illegal v =>
    cases hexec
    exact ⟨_, rfl, rfl, rfl, rfl⟩

/-! ### The interrupt line -/

/-- While DONE is 0, so is IRQ (R142). -/
theorem irq_of_not_done {s : State} (h : s.done = false) : s.irq = false := by simp [State.irq, h]

/-- While IE is 0, IRQ is masked (R142). -/
theorem irq_of_not_ie {s : State} (h : s.ie = false) : s.irq = false := by simp [State.irq, h]

/-- While IE and DONE are 1, IRQ is asserted (R142). -/
theorem irq_of_ie_of_done {s : State} (hie : s.ie = true) (hdone : s.done = true) : s.irq = true := by
  simp [State.irq, hie, hdone]

theorem done_of_resetBlock {s t : State} (h : resetBlock s = .next t) : t.done = false := by
  rw [eq_of_resetBlock h, blockReset_done]

/-- A CTRL write without SRST stores IE and leaves DONE pending (R120). -/
theorem eq_of_setIe {s t : State} {v : Word} (hv : v.getLsbD 1 = false) (h : hostOp (.wr .word 0x004 v) s = .next t) :
    t = { s with ie := v.getLsbD 0 } :=
  (Host.Outcome.next.inj (((ctrlWriteSetsIeOrResets s v).1 hv).symm.trans h)).symm

/-- Settles O47: what each of the events does to IE and to DONE. -/
theorem interruptFollowsDone : Obligations.InterruptFollowsDone := by
  refine ⟨fun _ => rfl, fun i s t hexec => ?_, fun s t v hv h => ?_, fun s t w hp h => ?_, fun s t h => ?_,
    fun s t hdone h => ?_, fun s t h => ?_⟩
  · have hc := completes_of_exec hexec
    have hie : t.ie = s.ie := by rw [hc.frame]
    exact ⟨hc.done_eq, fun hs => irq_of_ie_of_done (hie.trans hs) hc.done_eq⟩
  · cases (hostOp_wr_offset .status v s).symm.trans h
    have hdone : (clearStatus v s).done = false := by simp [hv]
    exact ⟨hdone, irq_of_not_done hdone⟩
  · cases (cmdWriteWhileIdleIsAccepted s w hp).symm.trans h
    exact ⟨rfl, irq_of_not_done rfl⟩
  · exact ⟨done_of_resetBlock h, irq_of_not_done (done_of_resetBlock h)⟩
  · obtain rfl := eq_of_setIe (by decide) h
    exact irq_of_ie_of_done rfl hdone
  · obtain rfl := eq_of_setIe (by decide) h
    exact ⟨irq_of_not_ie rfl, rfl⟩

end Sys2Proof.Machine
end

section
/-! PROOFS. What a running command keeps from the host, and what a reset does: the bytes it leaves alone, and the
commands that run straight after it (spec/70_reset_and_hazards.md R154, R155, R159). -/

namespace Sys2Proof.Machine

/-! ### The ranges of the running command -/

theorem readBuffers_of_encode {s : State} (h : running s = .encode) :
    readBuffers s = [coverBuffer s, payloadBuffer s] := by
  rw [running] at h
  simp only [readBuffers, h]

theorem writeBuffers_of_encode {s : State} (h : running s = .encode) : writeBuffers s = [lockBuffer s] := by
  rw [running] at h
  simp only [writeBuffers, h]

theorem readBuffers_of_decode {s : State} (h : running s = .decode) : readBuffers s = [lockBuffer s, keyBuffer s] := by
  rw [running] at h
  simp only [readBuffers, h]

theorem writeBuffers_of_decode {s : State} (h : running s = .decode) : writeBuffers s = [outBuffer s] := by
  rw [running] at h
  simp only [writeBuffers, h]

/-- Only the frame commands write the memory (R53). -/
theorem writeBuffers_eq_nil {s : State} (henc : running s ≠ .encode) (hdec : running s ≠ .decode) :
    writeBuffers s = [] := by
  unfold writeBuffers
  split
  · next h => exact absurd h henc
  · next h => exact absurd h hdec
  all_goals rfl

/-! ### The races of the host -/

/-- A host read of a byte the running command writes is refused (R56, R159). -/
theorem hostOp_mrd_of_race {s : State} {a : Word} (hp : s.phase = .busy) (ha : a.toNat < s.memBytes)
    (h : ∃ x ∈ writeBuffers s, x.holds a.toNat = true) : hostOp (.mrd a) s = .refused (.hostRace a) := by
  have hrace : hostReadRaces s a.toNat = true := by
    rw [hostReadRaces, busy_eq_true.2 hp, Bool.true_and, List.any_eq_true]
    exact h
  simp [hostOp, hostMrd, Nat.not_le.2 ha, hrace]

/-- A host write of a byte the running command reads or writes is refused (R56, R159). -/
theorem hostOp_mwr_of_race {s : State} {a : Word} (v : Byte) (hp : s.phase = .busy) (ha : a.toNat < s.memBytes)
    (h : ∃ x ∈ readBuffers s ++ writeBuffers s, x.holds a.toNat = true) :
    hostOp (.mwr a v) s = .refused (.hostRace a) := by
  have hrace : hostWriteRaces s a.toNat = true := by
    rw [hostWriteRaces, busy_eq_true.2 hp, Bool.true_and, List.any_eq_true]
    exact h
  simp [hostOp, hostMwr, Nat.not_le.2 ha, hrace]

/-- Settles O44: the bytes named are those of the running command's buffers. -/
theorem hostRaceIsRefused : Obligations.HostRaceIsRefused := by
  constructor
  · intro s a v hp hlatch ha
    have hrun : running s = .encode := by rw [running, hlatch]; rfl
    refine ⟨fun h => hostOp_mwr_of_race v hp ha ?_, fun h => hostOp_mrd_of_race hp ha ?_⟩
    · rw [readBuffers_of_encode hrun, writeBuffers_of_encode hrun]
      simpa using h
    · rw [writeBuffers_of_encode hrun]
      simpa using h
  · intro s a v hp hlatch ha
    have hrun : running s = .decode := by rw [running, hlatch]; rfl
    refine ⟨fun h => hostOp_mwr_of_race v hp ha ?_, fun h => hostOp_mrd_of_race hp ha ?_⟩
    · rw [readBuffers_of_decode hrun, writeBuffers_of_decode hrun]
      simpa using h
    · rw [writeBuffers_of_decode hrun]
      simpa using h

/-! ### The memory over a reset -/

/-- Abandoning a command that writes no memory changes nothing. -/
theorem abandon_of_writeBuffers_eq_nil {s : State} (h : writeBuffers s = []) : abandon s = s := by
  simp [abandon, h]

theorem mem_of_resetBlock {s t : State} (h : resetBlock s = .next t) : t.mem = (abandon s).mem := by
  rw [eq_of_resetBlock h, blockReset_mem]

/-- A reset leaves alone every byte outside the write range of the command it abandons (R154). -/
theorem read_eq_of_resetBlock {s t : State} {a : Nat} (h : resetBlock s = .next t) (ha : ¬WritesByte (running s) s a) :
    t.mem.read a = s.mem.read a := by
  rw [mem_of_resetBlock h, read_abandon_outside ha]

/-- Settles O50: what an answered reset changes in the memory is what `abandon` frees. -/
theorem resetKeepsMemoryOutsideTheWriteRange : Obligations.ResetKeepsMemoryOutsideTheWriteRange := by
  intro s t h
  refine ⟨phase_of_resetBlock h, fun hp => ?_, fun _ henc hdec => ?_, fun _ hrun a ha => ?_, fun _ hrun a ha => ?_⟩
  · rw [mem_of_resetBlock h, abandon_of_idle hp]
  · rw [mem_of_resetBlock h, abandon_of_writeBuffers_eq_nil (writeBuffers_eq_nil henc hdec)]
  · exact read_eq_of_resetBlock h (by simp [hrun, ha])
  · exact read_eq_of_resetBlock h (by simp [hrun, ha])

/-! ### Frame commands on the empty frame -/

theorem pixelCount_of_imgDim_eq_zero {s : State} (h : s.imgDim = 0) : pixelCount s = 0 := by
  rw [← capacityWord_toNat, capacityWord_of_imgDim_eq_zero h]
  rfl

/-- The empty payload in the empty frame passes every check of ENCODE, whatever the bases and the memory size are. -/
theorem encodeReady_of_empty {s : State} (hcount : pixelCount s = 0) (hlen : s.len = 0) : encodeReady s = true := by
  rw [encodeReady_iff, encodeInRange_iff, encodeKeepsApart_iff]
  simp [Buffer.inRange_cases, Buffer.apart_cases, hcount, hlen]

/-- The empty frame passes every check of DECODE, whatever the bases and the memory size are. -/
theorem decodeReady_of_empty {s : State} (hcount : pixelCount s = 0) (hdim : s.imgDim = s.keyDim) :
    decodeReady s = true := by
  rw [decodeReady_iff, dimensionsAgree_iff, decodeInRange_iff, decodeKeepsApart_iff]
  simp [Buffer.inRange_cases, Buffer.apart_cases, hcount, hdim]

/-- ENCODE of the empty payload in the empty frame completes and changes nothing else (R155). -/
theorem exec_encode_of_empty {s : State} (hcount : pixelCount s = 0) (hlen : s.len = 0) :
    exec .encode s = .next (finish .none 0 0 s) := by
  have hrun : encodeRun s = s := by
    rw [encodeRun, hcount]
    rfl
  rw [exec_encode_of_ready (encodeReady_of_empty hcount hlen), hrun]

/-- DECODE of the empty frame recovers the empty payload (R155). -/
theorem exec_decode_of_empty {s : State} (hcount : pixelCount s = 0) (hdim : s.imgDim = s.keyDim) :
    exec .decode s = .next (finish .none 0 0 { s with lnz := 0, outLen := 0 }) := by
  have hrun : decodeRun s = ({ s with lnz := 0 }, none) := by
    rw [decodeRun, hcount]
    rfl
  rw [exec_decode_of_ready (decodeReady_of_empty hcount hdim), hrun]
  rfl

/-! ### Commands straight after a reset -/

/-- Settles O51: over the reset operands the frame is empty, the byte is 0, and the two pixels are equal. -/
theorem commandsRunStraightAfterReset : Obligations.CommandsRunStraightAfterReset := by
  intro s t h
  obtain rfl := eq_of_resetBlock h
  have hcount (w : Word) : pixelCount (accept w (blockReset (abandon s))) = 0 := pixelCount_of_imgDim_eq_zero rfl
  have hdigits : packTriple (digits 0) = 0 := by decide
  have hencpx : packPixel (encPixel (unpackPixel 0) 0) = 0 := by decide
  have hdecpx : decPixel (unpackPixel 0) (unpackPixel 0) = .ok 0 := by decide
  exact ⟨⟨_, exec_encode_of_empty (hcount _) rfl, rfl, rfl⟩,
    ⟨_, exec_decode_of_empty (hcount _) rfl, rfl, rfl, rfl⟩,
    ⟨_, rfl, rfl, hdigits, rfl⟩,
    ⟨_, rfl, rfl, hencpx, rfl⟩,
    ⟨_, exec_decpx_of_ok hdecpx, rfl, rfl, rfl⟩⟩

end Sys2Proof.Machine
end
